-- ==== Sys2Proof/Word.lean ====
section
/-! DEFINITION. The word types of the block's ports and registers (00_scope.md R5, R7) and the 4-tuple of words. -/

namespace Sys2Proof

/-- A 64-bit port or register word, bit 0 the least significant (R5, R7). -/
abbrev Word := BitVec 64

/-- The 32-bit command word CMD (R25, R70). -/
abbrev CmdWord := BitVec 32

/-- One byte of a serialised word (R58). -/
abbrev Byte := BitVec 8

/-- An ordered 4-tuple of words: X[0..3] (R21), or RES[0..3] (R25). -/
structure Quad where
  x0 : Word
  x1 : Word
  x2 : Word
  x3 : Word
  deriving DecidableEq, Repr

/-- Four zero words. -/
def Quad.zero : Quad := ⟨0, 0, 0, 0⟩

/-- One result word in RES[0]; the words a rule does not name are 0 (R75). -/
def Quad.single (r : Word) : Quad := ⟨r, 0, 0, 0⟩

end Sys2Proof
end

