-- ==== Sys2Proof/Syntax.lean ====
section
/-! DEFINITION. The commands of SMX-1 as syntax: a command as the ports carry it (30_encoding.md R70), the instruction it
selects with the operands it reads (R71, R76), and the pseudo-instructions (R80). -/

namespace Sys2Proof

/-- A command as it stands on the command port: the command word and the three operand words (R25, R70). -/
structure Command where
  cmd : CmdWord
  opa : Word
  opb : Word
  opc : Word
  deriving DecidableEq, Repr

/-- One constructor per row of the opcode table (R76), with the operands R71 names, in the order of R79. -/
inductive Instr where
  | rdseed
  | rdx
  | seed (value : Word)
  | mix
  | mixp (w : Word)
  | xsf
  | xu64
  | xi64
  | xbits (b : Nat)
  | xf
  | mapu (raw lo hi : Word)
  | mapi (raw lo hi : Word)
  | rngu (lo hi : Word)
  | rngi (lo hi : Word)
  | mapf (raw lo hi : Word)
  | rngfs (lo hi : Word)
  | rngfx (lo hi : Word)
  deriving DecidableEq, Repr

/-- The pseudo-instructions of R80. -/
inductive Pseudo where
  | xu8
  | xu16
  | xu32
  | reseed
  | nextScalarFloat
  | nextU64
  | nextI64
  | nextBits (b : Nat)
  | initializeSeed (v : Word)
  deriving DecidableEq, Repr

/-- Each pseudo-instruction expands to one command (R80). -/
def Pseudo.expand : Pseudo → Instr
  | .xu8 => .xbits 8
  | .xu16 => .xbits 16
  | .xu32 => .xbits 32
  | .reseed => .seed 0
  | .nextScalarFloat => .xsf
  | .nextU64 => .xu64
  | .nextI64 => .xi64
  | .nextBits b => .xbits b
  | .initializeSeed v => .seed v

end Sys2Proof
end

