-- ==== Sys2Proof/WellFormed.lean ====
section
/-! DEFINITION. Which instruction terms have an encoding: NB is a 7-bit field (30_encoding.md R70, R72, R79); every other
operand has the width of its port word. -/

namespace Sys2Proof

/-- The one operand with a narrower field than its type: b of XBITS lies in 0..127 (R72, R79). The values 0 and 65..127
are well-formed encodings, which XBITS answers with OTHER. -/
def Instr.wellFormed : Instr → Bool
  | .xbits b => decide (b ≤ 127)
  | .rdseed => true
  | .rdx => true
  | .seed _ => true
  | .mix => true
  | .mixp _ => true
  | .xsf => true
  | .xu64 => true
  | .xi64 => true
  | .xf => true
  | .mapu _ _ _ => true
  | .mapi _ _ _ => true
  | .rngu _ _ => true
  | .rngi _ _ => true
  | .mapf _ _ _ => true
  | .rngfs _ _ => true
  | .rngfx _ _ => true

end Sys2Proof
end

