-- ==== Sys2Proof/Decode.lean ====
section
/-! DEFINITION. The decoder (30_encoding.md R70, R76, R77), total on any command and on any bytes and rejecting by name,
and the encoder written from the same tables (R71, R78). -/

namespace Sys2Proof

/-! ### The fields of the command word (R70) -/

/-- `OP = CMD[7:0]`. -/
def opField (c : CmdWord) : BitVec 8 := c.extractLsb' 0 8

/-- `NB = CMD[14:8]`. -/
def nbField (c : CmdWord) : BitVec 7 := c.extractLsb' 8 7

/-- `RSV = CMD[31:15]`. -/
def rsvField (c : CmdWord) : BitVec 17 := c.extractLsb' 15 17

/-! ### Decoding -/

/-- Why a command word is not a legal encoding: the three checks of R77, and a byte string shorter than a command. -/
inductive Illegal where
  /-- `OP` is none of the 17 opcodes of R76. -/
  | unassignedOpcode
  /-- A bit of `RSV` is set. -/
  | reservedBits
  /-- `NB` is not 0 and the opcode is not XBITS. -/
  | bitCountNotZero
  /-- Fewer bytes than one command has (raised by `decodeBytes` alone). -/
  | shortCommand
  deriving DecidableEq, Repr

/-- The instruction an opcode selects, given the command's operand words (R71, R76). -/
def instrOfOpcode (c : Command) : Option Instr :=
  if opField c.cmd = 0x01#8 then some .rdseed
  else if opField c.cmd = 0x02#8 then some .rdx
  else if opField c.cmd = 0x10#8 then some (.seed c.opa)
  else if opField c.cmd = 0x11#8 then some .mix
  else if opField c.cmd = 0x12#8 then some (.mixp c.opa)
  else if opField c.cmd = 0x20#8 then some .xsf
  else if opField c.cmd = 0x30#8 then some .xu64
  else if opField c.cmd = 0x31#8 then some .xi64
  else if opField c.cmd = 0x32#8 then some (.xbits (nbField c.cmd).toNat)
  else if opField c.cmd = 0x33#8 then some .xf
  else if opField c.cmd = 0x40#8 then some (.mapu c.opc c.opa c.opb)
  else if opField c.cmd = 0x41#8 then some (.mapi c.opc c.opa c.opb)
  else if opField c.cmd = 0x48#8 then some (.rngu c.opa c.opb)
  else if opField c.cmd = 0x49#8 then some (.rngi c.opa c.opb)
  else if opField c.cmd = 0x50#8 then some (.mapf c.opc c.opa c.opb)
  else if opField c.cmd = 0x58#8 then some (.rngfs c.opa c.opb)
  else if opField c.cmd = 0x59#8 then some (.rngfx c.opa c.opb)
  else none

/-- R77: the opcode, then `RSV`, then `NB`; the first check that fails names the refusal. -/
def decode (c : Command) : Except Illegal Instr :=
  match instrOfOpcode c with
  | none => .error .unassignedOpcode
  | some i =>
    if rsvField c.cmd ≠ 0#17 then .error .reservedBits
    else if nbField c.cmd ≠ 0#7 ∧ opField c.cmd ≠ 0x32#8 then .error .bitCountNotZero
    else .ok i

/-! ### Commands as bytes and as one number

A platform that stores the port words in bytes stores each in little-endian order (20_memory.md R58). The order of the four
words (CMD, OPA, OPB, OPC, the order of R70) is the model's own: DESIGN CHOICE, log 11. -/

/-- The low `n` bytes of a number, byte k being bits 8k+7..8k (R58). -/
def littleEndian : Nat → Nat → List Byte
  | 0, _ => []
  | n + 1, w => BitVec.ofNat 8 w :: littleEndian n (w / 256)

/-- The number a list of bytes stands for, the first byte lowest (R58). -/
def ofLittleEndian : List Byte → Nat
  | [] => 0
  | b :: bs => b.toNat + 256 * ofLittleEndian bs

/-- A command has 4 + 3 * 8 bytes. -/
def commandBytes : Nat := 28

/-- The bytes of a command: CMD, OPA, OPB, OPC, each little-endian. -/
def bytesOfCommand (c : Command) : List Byte :=
  littleEndian 4 c.cmd.toNat ++ littleEndian 8 c.opa.toNat ++ littleEndian 8 c.opb.toNat ++ littleEndian 8 c.opc.toNat

/-- The command at the head of a byte string, and the rest. -/
def commandOfBytes (bs : List Byte) : Option (Command × List Byte) :=
  if bs.length < commandBytes then none
  else some
    ({ cmd := BitVec.ofNat 32 (ofLittleEndian (bs.take 4))
       opa := BitVec.ofNat 64 (ofLittleEndian ((bs.drop 4).take 8))
       opb := BitVec.ofNat 64 (ofLittleEndian ((bs.drop 12).take 8))
       opc := BitVec.ofNat 64 (ofLittleEndian ((bs.drop 20).take 8)) }, bs.drop commandBytes)

/-- Decoding of any bytes: the instruction and the bytes after it, or the reason there is none. -/
def decodeBytes (bs : List Byte) : Except Illegal (Instr × List Byte) :=
  match commandOfBytes bs with
  | none => .error .shortCommand
  | some (c, rest) => match decode c with
    | .ok i => .ok (i, rest)
    | .error e => .error e

/-- The command whose bits are `w`, the bits at and above `nbits` taken as 0: CMD is bits 31..0, then OPA, OPB, OPC. -/
def commandOfNumber (nbits w : Nat) : Command :=
  { cmd := BitVec.ofNat 32 (w % 2 ^ nbits)
    opa := BitVec.ofNat 64 (w % 2 ^ nbits / 2 ^ 32)
    opb := BitVec.ofNat 64 (w % 2 ^ nbits / 2 ^ 96)
    opc := BitVec.ofNat 64 (w % 2 ^ nbits / 2 ^ 160) }

/-- What the decoder reads from an instruction whose bits are `w`, laid out as bytes. -/
def decodeTableWord (nbits w : Nat) : Option Instr :=
  match decodeBytes (bytesOfCommand (commandOfNumber nbits w)) with
  | .ok (i, _) => some i
  | .error _ => none

/-! ### Encoding -/

/-- `OP` of each command (R76). -/
def opcode : Instr → BitVec 8
  | .rdseed => 0x01#8
  | .rdx => 0x02#8
  | .seed _ => 0x10#8
  | .mix => 0x11#8
  | .mixp _ => 0x12#8
  | .xsf => 0x20#8
  | .xu64 => 0x30#8
  | .xi64 => 0x31#8
  | .xbits _ => 0x32#8
  | .xf => 0x33#8
  | .mapu _ _ _ => 0x40#8
  | .mapi _ _ _ => 0x41#8
  | .rngu _ _ => 0x48#8
  | .rngi _ _ => 0x49#8
  | .mapf _ _ _ => 0x50#8
  | .rngfs _ _ => 0x58#8
  | .rngfx _ _ => 0x59#8

/-- `NB` of each command: b for XBITS, 0 for every other (R70, R71). -/
def bitCount : Instr → BitVec 7
  | .xbits b => BitVec.ofNat 7 b
  | .rdseed => 0
  | .rdx => 0
  | .seed _ => 0
  | .mix => 0
  | .mixp _ => 0
  | .xsf => 0
  | .xu64 => 0
  | .xi64 => 0
  | .xf => 0
  | .mapu _ _ _ => 0
  | .mapi _ _ _ => 0
  | .rngu _ _ => 0
  | .rngi _ _ => 0
  | .mapf _ _ _ => 0
  | .rngfs _ _ => 0
  | .rngfx _ _ => 0

/-- The operand words OPA, OPB, OPC of each command (R71); a word the command does not read is 0 (R79). -/
def operandWords : Instr → Word × Word × Word
  | .seed v => (v, 0, 0)
  | .mixp w => (w, 0, 0)
  | .mapu raw lo hi => (lo, hi, raw)
  | .mapi raw lo hi => (lo, hi, raw)
  | .mapf raw lo hi => (lo, hi, raw)
  | .rngu lo hi => (lo, hi, 0)
  | .rngi lo hi => (lo, hi, 0)
  | .rngfs lo hi => (lo, hi, 0)
  | .rngfx lo hi => (lo, hi, 0)
  | .rdseed => (0, 0, 0)
  | .rdx => (0, 0, 0)
  | .mix => (0, 0, 0)
  | .xsf => (0, 0, 0)
  | .xu64 => (0, 0, 0)
  | .xi64 => (0, 0, 0)
  | .xbits _ => (0, 0, 0)
  | .xf => (0, 0, 0)

/-- The command of an instruction: format F1 with `RSV` 0 (R70, R78). -/
def encode (i : Instr) : Command :=
  { cmd := 0#17 ++ bitCount i ++ opcode i
    opa := (operandWords i).1
    opb := (operandWords i).2.1
    opc := (operandWords i).2.2 }

end Sys2Proof
end

