-- ==== Sys2Proof/Machine/Float.lean ====
section
/-! DEFINITION. IEEE 754 binary64 arithmetic on bit patterns (00_scope.md R9, R10; 45_range_mapper_float.md R180).
Every finite binary64 value is a whole number of units of 2^-1074, so the exact result of an addition or multiplication
is a whole number or a fraction of units, and one function rounds it. -/

namespace Sys2Proof.Machine

/-- The number of units in 1.0. -/
def oneUnits : Nat := 2 ^ 1074

/-! ### Reading a bit pattern (R9: sign bit 63, exponent bits 62:52 with bias 1023, fraction bits 51:0) -/

/-- The sign bit. -/
def floatSign (v : Word) : Bool := v.toNat / 2 ^ 63 % 2 = 1

/-- The biased exponent. -/
def floatExponent (v : Word) : Nat := v.toNat / 2 ^ 52 % 2048

/-- The fraction. -/
def floatFraction (v : Word) : Nat := v.toNat % 2 ^ 52

/-- What a bit pattern stands for: a finite datum is its sign and its magnitude in units of 2^-1074. -/
inductive Datum where
  | nan
  | inf (neg : Bool)
  | fin (neg : Bool) (units : Nat)
  deriving DecidableEq, Repr

/-- The magnitude in units of 2^-1074 of a finite pattern: subnormals (exponent 0) count their fraction, a normal number
its significand scaled by its exponent. Subnormal inputs are used as they are (R180). -/
def floatUnits (exponent fraction : Nat) : Nat :=
  if exponent = 0 then fraction else (2 ^ 52 + fraction) * 2 ^ (exponent - 1)

/-- `f(v)` of R9: every pattern is a datum, NaNs and infinities included (30_encoding.md R73). -/
def datum (v : Word) : Datum :=
  if floatExponent v = 2047 then
    if floatFraction v = 0 then .inf (floatSign v) else .nan
  else .fin (floatSign v) (floatUnits (floatExponent v) (floatFraction v))

/-- A signed magnitude as an integer. -/
def signed (neg : Bool) (m : Nat) : Int := if neg then -(m : Int) else (m : Int)

/-- The value of a finite pattern in units of 2^-1074. -/
def floatValue (v : Word) : Int := signed (floatSign v) (floatUnits (floatExponent v) (floatFraction v))

/-! ### Writing a bit pattern -/

/-- The canonical quiet NaN, which every NaN result is (R180). -/
def canonicalNaN : Word := 0x7FF8000000000000#64

/-- The pattern of a sign and the 63 bits below it. -/
def floatPattern (neg : Bool) (mag : Nat) : Word := BitVec.ofNat 64 (mag + if neg then 2 ^ 63 else 0)

/-- The exponent and fraction bits of infinity. -/
def infinityMag : Nat := 2047 * 2 ^ 52

/-- The number of bits of `n` (0 for 0), as `bit_length` of R10. -/
def bitLength (n : Nat) : Nat := if n = 0 then 0 else Nat.log2 n + 1

/-- `num / den` to the nearest whole number, ties to even (R180). -/
def nearestEven (num den : Nat) : Nat :=
  if den < 2 * (num % den) ∨ (2 * (num % den) = den ∧ num / den % 2 = 1) then num / den + 1 else num / den

/-- The exponent and fraction bits of the magnitude `num / den` units, rounded to 53 significant bits, to nearest with ties
to even, with gradual underflow and overflow to infinity (R180). A quotient of L bits keeps its top 53, so it is rounded to
a multiple of 2^(L-53) units; the significand, leading bit included, is added to the exponent field's share, so that a
carry out of the fraction moves the exponent up. -/
def roundMag (num den : Nat) : Nat :=
  let drop := bitLength (num / den) - 53
  min (drop * 2 ^ 52 + nearestEven num (den * 2 ^ drop)) infinityMag

/-- The rounded pattern of a signed magnitude of `num / den` units. -/
def roundFloat (neg : Bool) (num den : Nat) : Word := floatPattern neg (roundMag num den)

/-! ### The operations of R9, each rounded on its own (R180) -/

/-- The sum of two finite data. An exact sum of 0 is +0 unless both are -0 (round to nearest; log 16). -/
def addFinite (s : Bool) (m : Nat) (t : Bool) (n : Nat) : Word :=
  let sum := signed s m + signed t n
  if sum = 0 then floatPattern (s && t) 0 else roundFloat (decide (sum < 0)) sum.natAbs 1

/-- `fadd(a, b)`. -/
def fadd (a b : Word) : Word :=
  match datum a, datum b with
  | .nan, _ => canonicalNaN
  | _, .nan => canonicalNaN
  | .inf s, .inf t => if s = t then floatPattern s infinityMag else canonicalNaN
  | .inf s, .fin _ _ => floatPattern s infinityMag
  | .fin _ _, .inf t => floatPattern t infinityMag
  | .fin s m, .fin t n => addFinite s m t n

/-- The pattern with its sign bit turned over. -/
def fneg (a : Word) : Word := a ^^^ 0x8000000000000000#64

/-- `fsub(a, b)`. -/
def fsub (a b : Word) : Word := fadd a (fneg b)

/-- `fmul(a, b)`: the product of m and n units is m * n / 2^1074 units (R9, R180). -/
def fmul (a b : Word) : Word :=
  match datum a, datum b with
  | .nan, _ => canonicalNaN
  | _, .nan => canonicalNaN
  | .inf s, .inf t => floatPattern (s != t) infinityMag
  | .inf s, .fin t n => if n = 0 then canonicalNaN else floatPattern (s != t) infinityMag
  | .fin s m, .inf t => if m = 0 then canonicalNaN else floatPattern (s != t) infinityMag
  | .fin s m, .fin t n => roundFloat (s != t) (m * n) oneUnits

/-- `flt(a, b)`: false when either is a NaN; +0 and -0 compare equal (R9). -/
def flt (a b : Word) : Bool :=
  match datum a, datum b with
  | .nan, _ => false
  | _, .nan => false
  | .inf s, .inf t => s && !t
  | .inf s, .fin _ _ => s
  | .fin _ _, .inf t => !t
  | .fin s m, .fin t n => decide (signed s m < signed t n)

/-- `a <= b` under IEEE comparison: false when either is a NaN. -/
def fle (a b : Word) : Bool :=
  match datum a, datum b with
  | .nan, _ => false
  | _, .nan => false
  | .inf s, .inf t => s || !t
  | .inf s, .fin _ _ => s
  | .fin _ _, .inf t => !t
  | .fin s m, .fin t n => decide (signed s m ≤ signed t n)

/-- `fgt(a, b)` (R9). -/
def fgt (a b : Word) : Bool := flt b a

/-- `fge(a, b)` (R9). -/
def fge (a b : Word) : Bool := fle b a

/-- The pattern is a NaN. -/
def isNaN (a : Word) : Bool := datum a == .nan

/-- The pattern is a finite number. -/
def isFinite (a : Word) : Bool := floatExponent a != 2047

/-! ### The [0,1) float of a 53-bit quantity (R10) -/

/-- `u53_to_f64(m)`: the pattern of the exact value m / 2^53, for m < 2^53, in the bit-exact form of R10. -/
def u53ToF64 (m : Nat) : Word :=
  if m = 0 then 0
  else
    let k := bitLength m
    let expo := k + 969
    let frac := m * 2 ^ (53 - k) % 2 ^ 52
    BitVec.ofNat 64 (expo * 2 ^ 52 + frac)

end Sys2Proof.Machine
end

