-- ==== Sys2Proof/Machine/Flags.lean ====
section
/-! DEFINITION. The block has no flags (00_scope.md R12; 10_state.md R23). What a command reports is its status code
(60_exceptions.md R200), and this file holds the codes and every check that decides one. -/

namespace Sys2Proof.Machine

/-- The status codes of R200. `dimensions` and `type` belong to parts out of scope and are never produced. -/
inductive Status where
  | ok
  | range
  | dimensions
  | type
  | other
  | illegal
  deriving DecidableEq, Repr

/-- The 3-bit code on `rsp_status` (R200). -/
def statusCode : Status → BitVec 3
  | .ok => 0#3
  | .range => 1#3
  | .dimensions => 2#3
  | .type => 3#3
  | .other => 4#3
  | .illegal => 5#3

/-- The check of the unsigned range commands passes: hi >= lo, and hi - lo is not MAX64 (44_range_mapper_int.md R161). -/
def rangeOkU (lo hi : Word) : Bool :=
  decide (lo.toNat ≤ hi.toNat) && decide (hi.toNat - lo.toNat ≠ 2 ^ 64 - 1)

/-- The check of the signed range commands passes: s64(hi) >= s64(lo), and hi -w lo is not MAX64 (R162). -/
def rangeOkI (lo hi : Word) : Bool :=
  decide (lo.toInt ≤ hi.toInt) && decide ((hi - lo).toNat ≠ 2 ^ 64 - 1)

/-- The check of the float range commands passes: hi > lo under IEEE comparison (45_range_mapper_float.md R181). -/
def rangeOkF (lo hi : Word) : Bool := fgt hi lo

/-- The pattern of 1.0. -/
def floatOne : Word := 0x3FF0000000000000#64

/-- The raw-value check: raw >= 0.0 and raw < 1.0 under IEEE comparison; -0.0 passes (R181). -/
def rawOkF (raw : Word) : Bool := fge raw 0#64 && flt raw floatOne

/-- The bit-count check of XBITS: 1 <= b <= 64 (43_xoshiro_multiword_gen.md R146). -/
def bitCountOk (b : Nat) : Bool := decide (1 ≤ b) && decide (b ≤ 64)

end Sys2Proof.Machine
end

