-- ==== Sys2Proof/Machine/Operands.lean ====
section
/-! DEFINITION. How the range commands read their operand words and what they compute from them: `map_u` and `map_i`
(44_range_mapper_int.md R161, R162) and `map_f` (45_range_mapper_float.md R181). A u64 operand is its bits as an unsigned
number, an s64 operand two's complement, a float operand a binary64 pattern (30_encoding.md R73). -/

namespace Sys2Proof.Machine

/-- `map_u(raw, lo, hi)` (R161): exact arithmetic on the unsigned values, narrowed at the end. The bias of the plain
remainder is kept (R160). -/
def mapU (raw lo hi : Word) : Except Status Word :=
  if rangeOkU lo hi then
    let span := (hi.toNat - lo.toNat) + 1
    .ok (BitVec.ofNat 64 (raw.toNat % span + lo.toNat))
  else .error .range

/-- `map_i(raw, lo, hi)` (R162): the difference is unsigned, and the last addition is of bit patterns and wraps. -/
def mapI (raw lo hi : Word) : Except Status Word :=
  if rangeOkI lo hi then
    let span := (hi - lo).toNat + 1
    .ok (BitVec.ofNat 64 (raw.toNat % span) + lo)
  else .error .range

/-- The arithmetic of `map_f`, three operations rounded one by one, with no fused multiply-add (R180, R181). -/
def lerpF (raw lo hi : Word) : Word := fadd (fmul (fsub hi lo) raw) lo

/-- `map_f(raw, lo, hi)` (R181): the range check, then the raw-value check. A NaN result is canonical because `fadd`
delivers only that one (R180). -/
def mapF (raw lo hi : Word) : Except Status Word :=
  if rangeOkF lo hi then
    if rawOkF raw then .ok (lerpF raw lo hi) else .error .other
  else .error .range

end Sys2Proof.Machine
end

