-- ==== Sys2Proof/Config.lean ====
section
/-! DEFINITION. What the spec leaves open as a named parameter or a draw (00_scope.md R6): constants with no body, so
that a claim about them is a claim about every value. -/

namespace Sys2Proof

/-- `RESET_SEED` less one. Every value of the type is a possible implementation (log 4). -/
opaque Config.resetSeedLessOne : Fin 18446744073709551615

/-- `RESET_SEED`, the non-zero value of SEED after reset (R6, R30): each of the 2^64 - 1 non-zero words is one value of
`resetSeedLessOne`. Mark: DEDUCED (log 4), safe. -/
def Config.resetSeed : Word := BitVec.ofNat 64 (Config.resetSeedLessOne.val + 1)

/-- `RESET_XBASE`, any 64-bit value: the seed value X[0..3] is derived from at reset (R6, R31). Log 5, safe. -/
opaque Config.resetXBase : Word

/-- `LATENCY` less one (R6, R241), from the instance's stream, the number of its draw, the command, and SEED and X when the
command's step is done. It may differ between commands and between instances, no two of its values are related, and it has
no bound. What it depends on is left open by the spec (91_not_in_source.md N3): DESIGN CHOICE, log 3. -/
opaque Config.latencyLessOne : Nat → Nat → Command → Word → Quad → Nat

/-- `ENTROPY` where the model itself must supply one (only `State.withFetchWord`): a free draw, under no law
(R6, R26). Log 6, safe. -/
opaque Config.freeEntropy : Nat → Nat → Word

/-- `N_INSTANCES` less one (R6, R212). Log 9, safe. -/
opaque Config.instancesLessOne : Nat

/-- `N_INSTANCES`, at least 1 (R6, R212). -/
def Config.nInstances : Nat := Config.instancesLessOne + 1

end Sys2Proof
end

