-- ==== Sys2Proof/Machine/Generators.lean ====
section
/-! DEFINITION. The step and output functions of the three generators, on words: the splitmix64 mixer
(41_splitmix64_mixer.md R110), the xorshift scalar generator (42_xorshift_scalar_gen.md R130) and the xoshiro-family
multi-word generator (43_xoshiro_multiword_gen.md R140). -/

namespace Sys2Proof.Machine

/-- `rotl64(a, k)` for 0 < k < 64 (00_scope.md R8). -/
def rotl64 (a : Word) (k : Nat) : Word := (a <<< k) ||| (a >>> (64 - k))

/-! ### Seed mixer (R110) -/

/-- The golden-ratio increment. -/
def gamma : Word := 0x9e3779b97f4a7c15#64

/-- The finaliser `fin`. -/
def mixFin (z : Word) : Word :=
  let z1 := (z ^^^ (z >>> 30)) * 0xbf58476d1ce4e5b9#64
  let z2 := (z1 ^^^ (z1 >>> 27)) * 0x94d049bb133111eb#64
  z2 ^^^ (z2 >>> 31)

/-- `mix_step`: the new seed and the output, made from the new seed. -/
def mixStep (s : Word) : Word × Word := (s + gamma, mixFin (s + gamma))

/-- `derive4`: four mixer calls in sequence; the seed after them and the four outputs, first to last. -/
def derive4 (v : Word) : Word × Quad :=
  let c1 := mixStep v
  let c2 := mixStep c1.1
  let c3 := mixStep c2.1
  let c4 := mixStep c3.1
  (c4.1, ⟨c1.2, c2.2, c3.2, c4.2⟩)

/-! ### Scalar generator (R130) -/

/-- `xs_step`: shifts 13 left, 7 right, 17 left, each on the result of the one before. -/
def xsStep (s : Word) : Word :=
  let s1 := s ^^^ (s <<< 13)
  let s2 := s1 ^^^ (s1 >>> 7)
  s2 ^^^ (s2 <<< 17)

/-- `xs_float` of the new seed. -/
def xsFloat (s : Word) : Word := u53ToF64 (s >>> 11).toNat

/-! ### Multi-word generator (R140) -/

/-- `xo_out_u64`: the integer output, from the state before the advance. -/
def xoOutU64 (x : Quad) : Word := rotl64 (x.x1 * 5#64) 7 * 9#64

/-- `xo_out_f64`: the float output, from the state before the advance. -/
def xoOutF64 (x : Quad) : Word := u53ToF64 ((x.x0 + x.x3) >>> 11).toNat

/-- `xo_advance`: the six assignments in the order written. -/
def xoAdvance (x : Quad) : Quad :=
  let t := x.x1 <<< 17
  let x2 := x.x2 ^^^ x.x0
  let x3 := x.x3 ^^^ x.x1
  let x1 := x.x1 ^^^ x2
  let x0 := x.x0 ^^^ x3
  let x2' := x2 ^^^ t
  let x3' := rotl64 x3 45
  ⟨x0, x1, x2', x3'⟩

/-- The top `b` bits of a word, in bits b-1..0, for 1 <= b <= 64 (R145, R146). -/
def topBits (r : Word) (b : Nat) : Word := if b = 64 then r else r >>> (64 - b)

end Sys2Proof.Machine
end

