-- ==== Sys2Proof/Machine/State.lean ====
section
/-! DEFINITION. The state of one block and its interface (10_state.md), and the state after reset (R30-R33). -/

namespace Sys2Proof.Machine

/-- Why a step stops. -/
inductive Fault where
  /-- The path 60_exceptions.md R205 says no rule reaches: a mapping that "cannot raise here" raised. Raised by the
  meanings of RNGU, RNGI, RNGFS and RNGFX (`completeDrawn`) after their check has passed. Safe: R205 asks a model on such a
  path to fault and not to return a value. -/
  | internalAbort
  deriving DecidableEq, Repr

/-- Why a step has no meaning. -/
inductive Refusal where
  /-- An instruction with no meaning yet, by its mnemonic; raised in `exec`'s arms alone (none is left). Safe. -/
  | notModelled (mnemonic : String)
  deriving DecidableEq, Repr

/-- The values on the input ports at one rising edge of `clk` (R25, R26, R27). -/
structure PortIn where
  /-- `rst_n`, active low (R27). -/
  rstN : Bool
  /-- `cmd_valid` (R27). -/
  cmdValid : Bool
  /-- `cmd_word`, `opa`, `opb`, `opc` (R25). -/
  command : Command
  /-- `entropy`, whatever the platform supplies (R26). -/
  entropy : Word
  /-- `rsp_ready` (R27). -/
  rspReady : Bool
  deriving DecidableEq, Repr

/-- Ports on which nothing happens: no reset, no command, no response taken. What a host that has nothing scripted drives:
DESIGN CHOICE, log 1. -/
def PortIn.quiet : PortIn :=
  { rstN := true, cmdValid := false, command := ⟨0, 0, 0, 0⟩, entropy := 0, rspReady := false }

/-- One block, its interface, and the inputs of the coming edges. -/
structure State where
  /-- The scalar seed SEED (R20). -/
  seed : Word
  /-- The multi-word state X[0..3] (R21). -/
  x : Quad
  /-- The holding register of ST (R25, R28). -/
  rspStatus : BitVec 3
  /-- The holding registers of RES[0..3] (R25, R28). -/
  rspRes : Quad
  /-- The outstanding command: `none` when there is none; `some n` when its response becomes valid after `n` more edges,
  so `some 0` is `rsp_valid` (R27, R33). -/
  outstanding : Option Nat
  /-- The input ports at the next edge. -/
  pins : PortIn
  /-- The input ports at the edges after that, in order. -/
  script : List PortIn
  /-- The model's own: which stream of free values this block reads (log 6). -/
  drawStream : Nat
  /-- The model's own: how many free values it has drawn (log 6). -/
  drawIndex : Nat
  deriving DecidableEq, Repr

/-- The state right after reset (R30, R31, R32, R33), with quiet ports. -/
def State.reset : State :=
  { seed := Config.resetSeed
    x := (derive4 Config.resetXBase).2
    rspStatus := 0
    rspRes := Quad.zero
    outstanding := none
    pins := PortIn.quiet
    script := []
    drawStream := 0
    drawIndex := 0 }

end Sys2Proof.Machine
end

