-- ==== Sys2Proof/Machine/Ops.lean ====
section
/-! DEFINITION. The shared operations over State: writing the registers, ending a command with a response
(00_scope.md R11; 60_exceptions.md R201, R202), and what the mapping and generating commands have in common. The block has
no traps (60_exceptions.md R208): `reject` is what ends a command in error, once for all commands. -/

namespace Sys2Proof.Machine

/-- `SEED <- v`. -/
def setSeed (s : State) (v : Word) : State := { s with seed := v }

/-- `X[0..3] <- v`, one atomic write. -/
def setX (s : State) (v : Quad) : State := { s with x := v }

/-- The response holding registers take a status and four result words (R28). -/
def respond (s : State) (st : Status) (res : Quad) : State :=
  { s with rspStatus := statusCode st, rspRes := res }

/-- A command that ends without `raise`: `ST <- OK` and its result words (R11, R75). -/
def complete (s : State) (res : Quad) : Host.Outcome State Fault Refusal := .next (respond s .ok res)

/-- `raise`: the named status, no architectural state written, all result words 0 (R11, R202). -/
def reject (s : State) (st : Status) : Host.Outcome State Fault Refusal := .next (respond s st Quad.zero)

/-- The seed value a `SEED` command derives from: its operand, or the sampled `entropy` when the operand is 0
(41_splitmix64_mixer.md R111; 10_state.md R26). -/
def seedValue (value : Word) (s : State) : Word := if value ≠ 0 then value else s.pins.entropy

/-- The state with the scalar generator stepped once (42_xorshift_scalar_gen.md R131). -/
def stepScalar (s : State) : State := setSeed s (xsStep s.seed)

/-- The state with the multi-word generator advanced once (43_xoshiro_multiword_gen.md R142). -/
def advanceX (s : State) : State := setX s (xoAdvance s.x)

/-- The integer form of the multi-word generator: the output of the state before the advance, and the advance
(R142, R143). -/
def drawWord (s : State) : Host.Outcome State Fault Refusal :=
  complete (advanceX s) (Quad.single (xoOutU64 s.x))

/-- A pure mapping command ends with the mapped word, or with the status its mapping raised. -/
def completeMapped (s : State) (r : Except Status Word) : Host.Outcome State Fault Refusal :=
  match r with
  | .ok w => complete s (Quad.single w)
  | .error st => reject s st

/-- A generating mapping command, after its check and its draw, ends with the mapped word. Its mapping cannot raise there;
were it to, the model faults (60_exceptions.md R205; log 8). -/
def completeDrawn (s : State) (r : Except Status Word) : Host.Outcome State Fault Refusal :=
  match r with
  | .ok w => complete s (Quad.single w)
  | .error _ => .fault .internalAbort

end Sys2Proof.Machine
end

