-- ==== Sys2Proof/Machine/FloatRange.lean ====
section
/-! DEFINITION. The float range mapper's commands MAPF, RNGFS and RNGFX (45_range_mapper_float.md R183-R185). -/

namespace Sys2Proof.Machine

/-- R183: RANGE before OTHER. -/
def execMapf (raw lo hi : Word) (s : State) : Host.Outcome State Fault Refusal := completeMapped s (mapF raw lo hi)

/-- R184: the raw value is the scalar generator's, from the new seed. -/
def execRngfs (lo hi : Word) (s : State) : Host.Outcome State Fault Refusal :=
  if rangeOkF lo hi then completeDrawn (stepScalar s) (mapF (xsFloat (xsStep s.seed)) lo hi) else reject s .range

/-- R185: the raw value is the multi-word generator's float form, from the state before the advance. -/
def execRngfx (lo hi : Word) (s : State) : Host.Outcome State Fault Refusal :=
  if rangeOkF lo hi then completeDrawn (advanceX s) (mapF (xoOutF64 s.x) lo hi) else reject s .range

end Sys2Proof.Machine
end

