-- ==== Sys2Proof/Machine/IntRange.lean ====
section
/-! DEFINITION. The integer range mapper's commands MAPU, MAPI, RNGU and RNGI (44_range_mapper_int.md R163-R168). -/

namespace Sys2Proof.Machine

/-- R163. -/
def execMapu (raw lo hi : Word) (s : State) : Host.Outcome State Fault Refusal := completeMapped s (mapU raw lo hi)

/-- R164. -/
def execMapi (raw lo hi : Word) (s : State) : Host.Outcome State Fault Refusal := completeMapped s (mapI raw lo hi)

/-- R165: the range check comes before the advance (R168). -/
def execRngu (lo hi : Word) (s : State) : Host.Outcome State Fault Refusal :=
  if rangeOkU lo hi then completeDrawn (advanceX s) (mapU (xoOutU64 s.x) lo hi) else reject s .range

/-- R166: the range check comes before the advance (R168). -/
def execRngi (lo hi : Word) (s : State) : Host.Outcome State Fault Refusal :=
  if rangeOkI lo hi then completeDrawn (advanceX s) (mapI (xoOutU64 s.x) lo hi) else reject s .range

end Sys2Proof.Machine
end

