-- ==== Sys2Proof/Machine/MultiWordGen.lean ====
section
/-! DEFINITION. The multi-word generator's commands XU64, XI64, XBITS and XF (43_xoshiro_multiword_gen.md R143-R147). -/

namespace Sys2Proof.Machine

/-- R143. -/
def execXu64 (s : State) : Host.Outcome State Fault Refusal := drawWord s

/-- R144: the same 64 bits, which the host reads as two's complement. -/
def execXi64 (s : State) : Host.Outcome State Fault Refusal := drawWord s

/-- R146: OTHER outside 1..64, before any state change; otherwise the top b bits of the integer output. -/
def execXbits (b : Nat) (s : State) : Host.Outcome State Fault Refusal :=
  if bitCountOk b then complete (advanceX s) (Quad.single (topBits (xoOutU64 s.x) b)) else reject s .other

/-- R147. -/
def execXf (s : State) : Host.Outcome State Fault Refusal :=
  complete (advanceX s) (Quad.single (xoOutF64 s.x))

end Sys2Proof.Machine
end

