-- ==== Sys2Proof/Machine/ScalarGen.lean ====
section
/-! DEFINITION. The scalar generator's command XSF (42_xorshift_scalar_gen.md R131). -/

namespace Sys2Proof.Machine

/-- R131: the output is made from the new seed. -/
def execXsf (s : State) : Host.Outcome State Fault Refusal :=
  complete (stepScalar s) (Quad.single (xsFloat (xsStep s.seed)))

end Sys2Proof.Machine
end

