-- ==== Sys2Proof/Machine/SeedMixer.lean ====
section
/-! DEFINITION. The seed mixer's commands SEED, MIX and MIXP (41_splitmix64_mixer.md R111, R112, R113). -/

namespace Sys2Proof.Machine

/-- R111: all five registers are written from `derive4` of the operand or of the sampled entropy; the results are 0. -/
def execSeed (value : Word) (s : State) : Host.Outcome State Fault Refusal :=
  let d := derive4 (seedValue value s)
  complete (setX (setSeed s d.1) d.2) Quad.zero

/-- R112. -/
def execMix (s : State) : Host.Outcome State Fault Refusal :=
  let c := mixStep s.seed
  complete (setSeed s c.1) (Quad.single c.2)

/-- R113: one mixer call on the operand word, no state written. -/
def execMixp (w : Word) (s : State) : Host.Outcome State Fault Refusal :=
  let c := mixStep w
  complete s ⟨c.2, c.1, 0, 0⟩

end Sys2Proof.Machine
end

