-- ==== Sys2Proof/Machine/StateAccess.lean ====
section
/-! DEFINITION. The State Store commands RDSEED and RDX (40_state_access.md R100, R101). -/

namespace Sys2Proof.Machine

/-- R100. -/
def execRdseed (s : State) : Host.Outcome State Fault Refusal := complete s (Quad.single s.seed)

/-- R101. -/
def execRdx (s : State) : Host.Outcome State Fault Refusal := complete s s.x

end Sys2Proof.Machine
end

