-- ==== Sys2Proof/Machine/Dispatch.lean ====
section
/-! DEFINITION. The dispatch of every instruction to its meaning. -/

namespace Sys2Proof.Machine

/-- The effect of one legal command: the state registers and the response holding registers. -/
def exec (i : Instr) (s : State) : Host.Outcome State Fault Refusal :=
  match i with
  | .rdseed => Sys2Proof.Machine.execRdseed s
  | .rdx => Sys2Proof.Machine.execRdx s
  | .seed value => Sys2Proof.Machine.execSeed value s
  | .mix => Sys2Proof.Machine.execMix s
  | .mixp w => Sys2Proof.Machine.execMixp w s
  | .xsf => Sys2Proof.Machine.execXsf s
  | .xu64 => Sys2Proof.Machine.execXu64 s
  | .xi64 => Sys2Proof.Machine.execXi64 s
  | .xbits b => Sys2Proof.Machine.execXbits b s
  | .xf => Sys2Proof.Machine.execXf s
  | .mapu raw lo hi => Sys2Proof.Machine.execMapu raw lo hi s
  | .mapi raw lo hi => Sys2Proof.Machine.execMapi raw lo hi s
  | .rngu lo hi => Sys2Proof.Machine.execRngu lo hi s
  | .rngi lo hi => Sys2Proof.Machine.execRngi lo hi s
  | .mapf raw lo hi => Sys2Proof.Machine.execMapf raw lo hi s
  | .rngfs lo hi => Sys2Proof.Machine.execRngfs lo hi s
  | .rngfx lo hi => Sys2Proof.Machine.execRngfx lo hi s

end Sys2Proof.Machine
end

