-- ==== Sys2Proof/Machine/Edge.lean ====
section
/-! DEFINITION. One rising edge of `clk`: reset, the command and response handshakes, and the output ports
(10_state.md R27, R28, R32; 70_reset_and_hazards.md R230, R239, R241). -/

namespace Sys2Proof.Machine

/-! ### Output ports at the coming edge -/

/-- `cmd_ready`: 1 while no command is outstanding, 0 in reset (R27, R32, R230). -/
def cmdReady (s : State) : Bool := s.pins.rstN && s.outstanding.isNone

/-- `rsp_valid`: 1 once LATENCY edges have passed since the acceptance and until the response is taken, 0 in reset
(R27, R230). -/
def rspValid (s : State) : Bool := s.pins.rstN && s.outstanding == some 0

/-- `rsp_status`, which reads 0 while `rsp_valid` is 0 (R32). -/
def rspStatusPort (s : State) : BitVec 3 := if rspValid s then s.rspStatus else 0#3

/-- `rsp_res0..3`, which read 0 while `rsp_valid` is 0 (R32). -/
def rspResPort (s : State) : Quad := if rspValid s then s.rspRes else Quad.zero

/-- The command accepted at the coming edge, if one is: `cmd_valid` and `cmd_ready` both 1 (R27). -/
def accepted (s : State) : Option Command := if s.pins.cmdValid && cmdReady s then some s.pins.command else none

/-- The response taken at the coming edge, if one is: `rsp_valid` and `rsp_ready` both 1 (R27). -/
def taken (s : State) : Option (BitVec 3 × Quad) :=
  if rspValid s && s.pins.rspReady then some (rspStatusPort s, rspResPort s) else none

/-! ### What an edge does -/

/-- The ports take the values of the next edge; a script that has run out drives quiet ports (log 1). -/
def nextPins (s : State) : State :=
  { s with pins := s.script.headD PortIn.quiet, script := s.script.tail }

/-- An edge with `rst_n` 0: the five registers to their reset values, the outstanding command discarded, the response
registers 0 (R230, R33). -/
def resetEdge (s : State) : State :=
  nextPins { s with
    seed := Config.resetSeed
    x := (derive4 Config.resetXBase).2
    rspStatus := 0
    rspRes := Quad.zero
    outstanding := none }

/-- The atomic step of the command on the port (20_memory.md R51): the instruction's effect, or ILLEGAL
(30_encoding.md R77). -/
def runCommand (s : State) : Host.Outcome State Fault Refusal :=
  match decode s.pins.command with
  | .ok i => exec i s
  | .error _ => reject s .illegal

/-- LATENCY less one of the command on the port, its step being done (R241). The spec leaves open what a command's latency
depends on: that it is a function of the stream and number of the draw, of the command and of SEED and X, and of nothing
else, is a DESIGN CHOICE (log 3). -/
def drawWait (s : State) : Nat := Config.latencyLessOne s.drawStream s.drawIndex s.pins.command s.seed s.x

/-- The command is outstanding: its response becomes valid LATENCY edges after this one (R27, R241; log 3). -/
def openResponse (s : State) : State :=
  nextPins { s with
    outstanding := some (drawWait s)
    drawIndex := s.drawIndex + 1 }

/-- An edge at which a command is accepted: its step, then the wait for its response. -/
def acceptEdge (s : State) : Host.Outcome State Fault Refusal :=
  match runCommand s with
  | .next t => .next (openResponse t)
  | .fault f => .fault f
  | .refused r => .refused r

/-- An edge of the wait: one edge fewer is left. -/
def waitEdge (s : State) (left : Nat) : State := nextPins { s with outstanding := some left }

/-- An edge at which the response is taken: the interface is idle, the holding registers empty (R28; log 7). -/
def takeEdge (s : State) : State :=
  nextPins { s with outstanding := none, rspStatus := 0, rspRes := Quad.zero }

/-- One rising edge. With a response waiting and `rsp_ready` 0 the block waits, however long (R239). -/
def clockEdge (s : State) : Host.Outcome State Fault Refusal :=
  if s.pins.rstN then
    match s.outstanding with
    | none => if s.pins.cmdValid then acceptEdge s else .next (nextPins s)
    | some 0 => if s.pins.rspReady then .next (takeEdge s) else .next (nextPins s)
    | some (left + 1) => .next (waitEdge s left)
  else .next (resetEdge s)

/-- Ports on which the host presents a command, with the entropy of a fresh draw (R26; log 6). -/
def presentCommand (s : State) (c : Command) : PortIn :=
  { rstN := true, cmdValid := true, command := c,
    entropy := Config.freeEntropy s.drawStream s.drawIndex, rspReady := false }

end Sys2Proof.Machine
end

