-- ==== Sys2Proof/Machine/Step.lean ====
section
/-! DEFINITION. The step of the machine, one rising edge of `clk`, and the placing of a command where the next step accepts
it. -/

namespace Sys2Proof.Machine

/-- One step is one rising edge of `clk` (10_state.md R27; log 1). -/
def step (s : State) : Host.Outcome State Fault Refusal := clockEdge s

/-- `s` with the command whose bits are `w` on the command port and the interface ready to accept it, so that the very next
step runs it: any earlier response counts as taken (log 10). -/
def State.withFetchWord (s : State) (nbits w : Nat) : State :=
  { s with outstanding := none, pins := presentCommand s (commandOfNumber nbits w) }

end Sys2Proof.Machine
end

