-- ==== Sys2Proof/Machine/Platform.lean ====
section
/-! DEFINITION. Several instances on one platform (10_state.md R36; 20_memory.md R53; 60_exceptions.md R212): a block each,
with its own registers and its own command port, and nothing shared. Which instance steps next is the environment's choice:
no order between instances is given. -/

namespace Sys2Proof.Machine

/-- The blocks of a platform, instance k at position k. -/
structure Platform where
  blocks : List State
  deriving DecidableEq, Repr

/-- `N_INSTANCES` blocks, each as reset leaves it; instance k draws its latencies and entropy from stream k (log 9). -/
def platformReset : Platform :=
  { blocks := (List.range Config.nInstances).map fun k => { State.reset with drawStream := k } }

/-- One edge of instance k. With no instance k there is nothing to step and the platform stays as it is. -/
def platformStep (k : Nat) (p : Platform) : Host.Outcome Platform Fault Refusal :=
  match p.blocks[k]? with
  | none => .next p
  | some s => match step s with
    | .next t => .next { blocks := p.blocks.set k t }
    | .fault f => .fault f
    | .refused r => .refused r

end Sys2Proof.Machine
end

