-- ==== Sys2Proof/Safety.lean ====
section
/-! DEFINITION. What counts as a safe state and a safe step, in the terms the claims use. -/

namespace Sys2Proof.Machine

/-- The multi-word state is not the degenerate all-zero state (10_state.md R34). -/
def multiWordAlive (s : State) : Prop := s.x ≠ Quad.zero

/-- A status code some command produces: OK, RANGE, OTHER or ILLEGAL (60_exceptions.md R200). -/
def producedCode (c : BitVec 3) : Prop := c = 0#3 ∨ c = 1#3 ∨ c = 4#3 ∨ c = 5#3

/-- The response registers are as a command or reset left them: a produced code, zero results beside a code that is not OK
(R202), and nothing held while no command is outstanding (10_state.md R28, R32). -/
def responseLegal (s : State) : Prop :=
  producedCode s.rspStatus ∧ (s.rspStatus ≠ 0#3 → s.rspRes = Quad.zero) ∧
    (s.outstanding = none → s.rspStatus = 0#3 ∧ s.rspRes = Quad.zero)

/-- A step goes on: it neither faults nor is refused (60_exceptions.md R205). -/
def goesOn (s : State) : Prop := ∃ t, step s = .next t

/-- Neither the next edge nor any of the `n - 1` edges after it is an edge in reset. -/
def noResetFor : Nat → State → Prop
  | 0, _ => True
  | n + 1, s => s.pins.rstN = true ∧ ∀ p ∈ s.script.take n, p.rstN = true

end Sys2Proof.Machine
end

