-- ==== Sys2Proof/Certificates/Slice0/Obligations.lean ====
section
/-! DEFINITION. The statements for the provers. The functions under `Sys2Proof.Claims` restate the spec's formulas on plain
numbers, apart from the model's own definitions, so that a statement compares two readings of a rule. -/

namespace Sys2Proof.Claims

open Sys2Proof.Machine

/-! ### The operators of 00_scope.md R8 on numbers below 2^64 -/

/-- `a << k`. -/
def shl (a k : Nat) : Nat := a * 2 ^ k % 2 ^ 64

/-- `a >> k`. -/
def shr (a k : Nat) : Nat := a / 2 ^ k

/-- `rotl64(a, k)`. -/
def rotl (a k : Nat) : Nat := shl a k ||| shr a (64 - k)

/-! ### The functions of 41, 42 and 43 on numbers -/

/-- The increment of R110. -/
def gammaNat : Nat := 0x9e3779b97f4a7c15

/-- `fin` of R110. -/
def finaliser (z : Nat) : Nat :=
  let z1 := (z ^^^ shr z 30) * 0xbf58476d1ce4e5b9 % 2 ^ 64
  let z2 := (z1 ^^^ shr z1 27) * 0x94d049bb133111eb % 2 ^ 64
  z2 ^^^ shr z2 31

/-- `xs_step` of R130. -/
def xorshift (s : Nat) : Nat :=
  let s1 := s ^^^ shl s 13
  let s2 := s1 ^^^ shr s1 7
  s2 ^^^ shl s2 17

/-- `xo_out_u64` of R140, from X[1] before the advance. -/
def integerOutput (x1 : Nat) : Nat := rotl (x1 * 5 % 2 ^ 64) 7 * 9 % 2 ^ 64

/-- `xo_advance` in the closed form R141 derives: the new words from the old ones. -/
def advanced (x : Quad) : Quad :=
  { x0 := x.x0 ^^^ x.x3 ^^^ x.x1
    x1 := x.x1 ^^^ x.x2 ^^^ x.x0
    x2 := x.x2 ^^^ x.x0 ^^^ BitVec.ofNat 64 (shl x.x1.toNat 17)
    x3 := BitVec.ofNat 64 (rotl (x.x3 ^^^ x.x1).toNat 45) }

/-- Half a unit in the last place beyond the largest finite number, in units of 2^-1074: that number is
(2^53 - 1) * 2^2045 units. -/
def overflowUnits : Nat := (2 ^ 54 - 1) * 2 ^ 2044

/-- The pattern of the exact value m / 2^53, with sign 0 (R10): its units, times 2^53, are m times the units of 1.0. -/
def isFraction53 (r : Word) (m : Nat) : Prop :=
  isFinite r = true ∧ floatSign r = false ∧ floatValue r * 2 ^ 53 = (m : Int) * (oneUnits : Int)

/-- `r` is what IEEE 754 rounding to nearest, ties to even, makes of the exact value `num / den` units of 2^-1074. If it is
finite, it is a nearest representable number, and of two equally near ones the one with an even fraction. It is infinite,
with the sign of the exact value, exactly when that value is at least half a unit in the last place beyond the largest finite
number. The nearest number and the tie are R180's; the overflow bound and the sign of the infinity are IEEE 754's (PRESUMED,
log 16). -/
def roundsTo (r : Word) (num : Int) (den : Nat) : Prop :=
  (isFinite r = true → ∀ y : Word, isFinite y = true →
    (floatValue r * den - num).natAbs ≤ (floatValue y * den - num).natAbs ∧
    (floatValue y ≠ floatValue r →
      (floatValue r * den - num).natAbs = (floatValue y * den - num).natAbs → floatFraction r % 2 = 0)) ∧
  (isFinite r = false ↔ overflowUnits * den ≤ num.natAbs) ∧
  (isFinite r = false → r = if num < 0 then 0xFFF0000000000000#64 else 0x7FF0000000000000#64)

/-- The zero of a sign. -/
def signedZero (neg : Bool) : Word := if neg then 0x8000000000000000#64 else 0#64

/-! ### Lists of commands -/

/-- The commands that move the scalar stream (70_reset_and_hazards.md R234). -/
def movesScalar : Instr → Bool
  | .seed _ | .mix | .xsf | .rngfs _ _ => true
  | _ => false

/-- The commands that move the multi-word stream (R234). -/
def movesMultiWord : Instr → Bool
  | .seed _ | .xu64 | .xi64 | .xbits _ | .xf | .rngu _ _ | .rngi _ _ | .rngfx _ _ => true
  | _ => false

/-- The commands with no side effects (20_memory.md R60). -/
def readOnly : Instr → Bool
  | .rdseed | .rdx | .mixp _ | .mapu _ _ _ | .mapi _ _ _ | .mapf _ _ _ => true
  | _ => false

/-- `k` MIX commands in a row. -/
def mixTimes : Nat → State → Host.Outcome State Fault Refusal
  | 0, s => .next s
  | k + 1, s => match exec .mix s with
    | .next t => mixTimes k t
    | .fault f => .fault f
    | .refused r => .refused r

/-- The 17 opcodes of 30_encoding.md R76. -/
def opcodes : List Nat :=
  [0x01, 0x02, 0x10, 0x11, 0x12, 0x20, 0x30, 0x31, 0x32, 0x33, 0x40, 0x41, 0x48, 0x49, 0x50, 0x58, 0x59]

end Sys2Proof.Claims

open Sys2Proof Sys2Proof.Machine Sys2Proof.Claims

/-! ### State access (40_state_access.md) -/

/-- R100: RDSEED, word 0x00000001 with any operand words, answers OK with SEED and writes no state. -/
def Obligations.ReadSeedCommand : Prop :=
  ∀ (a b c : Word) (s : State),
    decode ⟨0x00000001#32, a, b, c⟩ = .ok .rdseed ∧
    exec .rdseed s = .next { s with rspStatus := 0#3, rspRes := ⟨s.seed, 0, 0, 0⟩ }

/-- R101: RDX, word 0x00000002 with any operand words, answers OK with X[0..3] and writes no state. -/
def Obligations.ReadMultiWordCommand : Prop :=
  ∀ (a b c : Word) (s : State),
    decode ⟨0x00000002#32, a, b, c⟩ = .ok .rdx ∧
    exec .rdx s = .next { s with rspStatus := 0#3, rspRes := ⟨s.x.x0, s.x.x1, s.x.x2, s.x.x3⟩ }

/-! ### Seed mixer (41_splitmix64_mixer.md) -/

/-- R111: SEED derives all five registers from its operand, or from the sampled entropy when the operand is 0, and answers
OK with zero results. The seed it leaves is v + 4 gamma. -/
def Obligations.SeedCommand : Prop :=
  ∀ (v b c : Word) (s : State),
    decode ⟨0x00000010#32, v, b, c⟩ = .ok (.seed v) ∧
    ∃ x : Quad,
      exec (.seed v) s = .next { s with
        seed := (if v = 0 then s.pins.entropy else v) + 0x78DDE6E5FD29F054#64
        x := x, rspStatus := 0#3, rspRes := ⟨0, 0, 0, 0⟩ } ∧
      x.x0.toNat = finaliser (((if v = 0 then s.pins.entropy else v).toNat + gammaNat) % 2 ^ 64) ∧
      x.x1.toNat = finaliser (((if v = 0 then s.pins.entropy else v).toNat + 2 * gammaNat) % 2 ^ 64) ∧
      x.x2.toNat = finaliser (((if v = 0 then s.pins.entropy else v).toNat + 3 * gammaNat) % 2 ^ 64) ∧
      x.x3.toNat = finaliser (((if v = 0 then s.pins.entropy else v).toNat + 4 * gammaNat) % 2 ^ 64)

/-- R112: MIX adds gamma to SEED and answers OK with the finaliser of the new seed; X is unchanged. -/
def Obligations.MixCommand : Prop :=
  ∀ (a b c : Word) (s : State),
    decode ⟨0x00000011#32, a, b, c⟩ = .ok .mix ∧
    ∃ o : Word,
      exec .mix s = .next { s with
        seed := s.seed + 0x9e3779b97f4a7c15#64, rspStatus := 0#3, rspRes := ⟨o, 0, 0, 0⟩ } ∧
      o.toNat = finaliser ((s.seed.toNat + gammaNat) % 2 ^ 64)

/-- R113: MIXP computes one mixer call on its operand word and writes no state. -/
def Obligations.PureMixCommand : Prop :=
  ∀ (w b c : Word) (s : State),
    decode ⟨0x00000012#32, w, b, c⟩ = .ok (.mixp w) ∧
    ∃ o : Word,
      exec (.mixp w) s = .next { s with
        rspStatus := 0#3, rspRes := ⟨o, w + 0x9e3779b97f4a7c15#64, 0, 0⟩ } ∧
      o.toNat = finaliser ((w.toNat + gammaNat) % 2 ^ 64)

/-! ### Scalar generator (42_xorshift_scalar_gen.md) -/

/-- R131: XSF steps SEED by the three shifts and answers OK with the exact float (new seed >> 11) / 2^53; X is unchanged. -/
def Obligations.ScalarFloatCommand : Prop :=
  ∀ (a b c : Word) (s : State),
    decode ⟨0x00000020#32, a, b, c⟩ = .ok .xsf ∧
    ∃ seed r : Word,
      exec .xsf s = .next { s with seed := seed, rspStatus := 0#3, rspRes := ⟨r, 0, 0, 0⟩ } ∧
      seed.toNat = xorshift s.seed.toNat ∧ isFraction53 r (seed.toNat / 2 ^ 11)

/-! ### Multi-word generator (43_xoshiro_multiword_gen.md) -/

/-- R143 and R144: XU64 and XI64 answer OK with the same 64 bits, made from X[1] before the advance, and advance X once;
SEED is unchanged. -/
def Obligations.MultiWordIntegerCommands : Prop :=
  ∀ (a b c : Word) (s : State),
    decode ⟨0x00000030#32, a, b, c⟩ = .ok .xu64 ∧ decode ⟨0x00000031#32, a, b, c⟩ = .ok .xi64 ∧
    ∃ r : Word,
      exec .xu64 s = .next { s with x := advanced s.x, rspStatus := 0#3, rspRes := ⟨r, 0, 0, 0⟩ } ∧
      exec .xi64 s = .next { s with x := advanced s.x, rspStatus := 0#3, rspRes := ⟨r, 0, 0, 0⟩ } ∧
      r.toNat = integerOutput s.x.x1.toNat

/-- R146: XBITS b answers OK for 1 <= b <= 64 with the top b bits of the integer output and advances X once; for b = 0 and
b > 64 it answers OTHER and changes no state. -/
def Obligations.BitsCommand : Prop :=
  (∀ (nb : BitVec 7) (a b c : Word),
    decode ⟨0#17 ++ nb ++ 0x32#8, a, b, c⟩ = .ok (.xbits nb.toNat)) ∧
  (∀ (b : Nat) (s : State), 1 ≤ b → b ≤ 64 →
    ∃ r : Word,
      exec (.xbits b) s = .next { s with x := advanced s.x, rspStatus := 0#3, rspRes := ⟨r, 0, 0, 0⟩ } ∧
      r.toNat = integerOutput s.x.x1.toNat / 2 ^ (64 - b) ∧ r.toNat < 2 ^ b) ∧
  (∀ (b : Nat) (s : State), b = 0 ∨ 64 < b →
    exec (.xbits b) s = .next { s with rspStatus := 4#3, rspRes := ⟨0, 0, 0, 0⟩ })

/-- R147: XF answers OK with the exact float ((X[0] + X[3]) >> 11) / 2^53 of the words before the advance, and advances X
once; SEED is unchanged. -/
def Obligations.MultiWordFloatCommand : Prop :=
  ∀ (a b c : Word) (s : State),
    decode ⟨0x00000033#32, a, b, c⟩ = .ok .xf ∧
    ∃ r : Word,
      exec .xf s = .next { s with x := advanced s.x, rspStatus := 0#3, rspRes := ⟨r, 0, 0, 0⟩ } ∧
      isFraction53 r ((s.x.x0.toNat + s.x.x3.toNat) % 2 ^ 64 / 2 ^ 11)

/-! ### Integer range mapper (44_range_mapper_int.md) -/

/-- R161 and R163: MAPU answers OK with the exact value raw mod span + lo, and RANGE for an inverted or the full range; it
writes no state. -/
def Obligations.UnsignedMapCommand : Prop :=
  ∀ (raw lo hi : Word) (s : State),
    decode ⟨0x00000040#32, lo, hi, raw⟩ = .ok (.mapu raw lo hi) ∧
    (lo.toNat ≤ hi.toNat → hi.toNat - lo.toNat < 2 ^ 64 - 1 →
      ∃ r : Word, exec (.mapu raw lo hi) s = .next { s with rspStatus := 0#3, rspRes := ⟨r, 0, 0, 0⟩ } ∧
        r.toNat = raw.toNat % (hi.toNat - lo.toNat + 1) + lo.toNat) ∧
    (hi.toNat < lo.toNat ∨ (lo.toNat = 0 ∧ hi.toNat = 2 ^ 64 - 1) →
      exec (.mapu raw lo hi) s = .next { s with rspStatus := 1#3, rspRes := ⟨0, 0, 0, 0⟩ })

/-- R162 and R164: MAPI answers OK with the exact signed value lo + raw mod span, and RANGE for an inverted or the full
range; it writes no state. -/
def Obligations.SignedMapCommand : Prop :=
  ∀ (raw lo hi : Word) (s : State),
    decode ⟨0x00000041#32, lo, hi, raw⟩ = .ok (.mapi raw lo hi) ∧
    (lo.toInt ≤ hi.toInt → hi.toInt - lo.toInt < 2 ^ 64 - 1 →
      ∃ r : Word, exec (.mapi raw lo hi) s = .next { s with rspStatus := 0#3, rspRes := ⟨r, 0, 0, 0⟩ } ∧
        r.toInt = lo.toInt + (raw.toNat : Int) % (hi.toInt - lo.toInt + 1)) ∧
    (hi.toInt < lo.toInt ∨ (lo.toInt = -(2 ^ 63) ∧ hi.toInt = 2 ^ 63 - 1) →
      exec (.mapi raw lo hi) s = .next { s with rspStatus := 1#3, rspRes := ⟨0, 0, 0, 0⟩ })

/-- R165: RNGU maps the integer output of X before the advance and advances X once, also for lo = hi; RANGE, with no
advance, for an inverted or the full range. SEED is unchanged. -/
def Obligations.UnsignedRangeCommand : Prop :=
  ∀ (lo hi c : Word) (s : State),
    decode ⟨0x00000048#32, lo, hi, c⟩ = .ok (.rngu lo hi) ∧
    (lo.toNat ≤ hi.toNat → hi.toNat - lo.toNat < 2 ^ 64 - 1 →
      ∃ r : Word,
        exec (.rngu lo hi) s = .next { s with x := advanced s.x, rspStatus := 0#3, rspRes := ⟨r, 0, 0, 0⟩ } ∧
        r.toNat = integerOutput s.x.x1.toNat % (hi.toNat - lo.toNat + 1) + lo.toNat) ∧
    (hi.toNat < lo.toNat ∨ (lo.toNat = 0 ∧ hi.toNat = 2 ^ 64 - 1) →
      exec (.rngu lo hi) s = .next { s with rspStatus := 1#3, rspRes := ⟨0, 0, 0, 0⟩ })

/-- R166: RNGI, the same for signed bounds. -/
def Obligations.SignedRangeCommand : Prop :=
  ∀ (lo hi c : Word) (s : State),
    decode ⟨0x00000049#32, lo, hi, c⟩ = .ok (.rngi lo hi) ∧
    (lo.toInt ≤ hi.toInt → hi.toInt - lo.toInt < 2 ^ 64 - 1 →
      ∃ r : Word,
        exec (.rngi lo hi) s = .next { s with x := advanced s.x, rspStatus := 0#3, rspRes := ⟨r, 0, 0, 0⟩ } ∧
        r.toInt = lo.toInt + (integerOutput s.x.x1.toNat : Int) % (hi.toInt - lo.toInt + 1)) ∧
    (hi.toInt < lo.toInt ∨ (lo.toInt = -(2 ^ 63) ∧ hi.toInt = 2 ^ 63 - 1) →
      exec (.rngi lo hi) s = .next { s with rspStatus := 1#3, rspRes := ⟨0, 0, 0, 0⟩ })

/-- R169: every OK result of the integer range commands lies between its bounds, as u64 for MAPU and RNGU and as s64 for
MAPI and RNGI. -/
def Obligations.IntegerRangeContainment : Prop :=
  ∀ (raw lo hi : Word) (s t : State), t.rspStatus = 0#3 →
    (exec (.mapu raw lo hi) s = .next t ∨ exec (.rngu lo hi) s = .next t →
      lo.toNat ≤ t.rspRes.x0.toNat ∧ t.rspRes.x0.toNat ≤ hi.toNat) ∧
    (exec (.mapi raw lo hi) s = .next t ∨ exec (.rngi lo hi) s = .next t →
      lo.toInt ≤ t.rspRes.x0.toInt ∧ t.rspRes.x0.toInt ≤ hi.toInt)

/-! ### Float range mapper (45_range_mapper_float.md) -/

/-- R181 and R183: MAPF checks hi > lo first and then that raw lies in [0,1); it answers OK with the three rounded
operations, RANGE or OTHER, and writes no state. -/
def Obligations.FloatMapCommand : Prop :=
  ∀ (raw lo hi : Word) (s : State),
    decode ⟨0x00000050#32, lo, hi, raw⟩ = .ok (.mapf raw lo hi) ∧
    (fgt hi lo = true → fge raw 0#64 = true → flt raw 0x3FF0000000000000#64 = true →
      ∃ r : Word, exec (.mapf raw lo hi) s = .next { s with rspStatus := 0#3, rspRes := ⟨r, 0, 0, 0⟩ } ∧
        r = fadd (fmul (fsub hi lo) raw) lo ∧ (isNaN r = true → r = 0x7FF8000000000000#64)) ∧
    (fgt hi lo = true → (fge raw 0#64 = false ∨ flt raw 0x3FF0000000000000#64 = false) →
      exec (.mapf raw lo hi) s = .next { s with rspStatus := 4#3, rspRes := ⟨0, 0, 0, 0⟩ }) ∧
    (fgt hi lo = false →
      exec (.mapf raw lo hi) s = .next { s with rspStatus := 1#3, rspRes := ⟨0, 0, 0, 0⟩ })

/-- R184: RNGFS maps the float of the stepped seed, and leaves that seed; RANGE, with SEED not stepped, unless hi > lo.
X is unchanged. -/
def Obligations.ScalarFloatRangeCommand : Prop :=
  ∀ (lo hi c : Word) (s : State),
    decode ⟨0x00000058#32, lo, hi, c⟩ = .ok (.rngfs lo hi) ∧
    (fgt hi lo = true →
      ∃ seed raw : Word,
        exec (.rngfs lo hi) s = .next { s with
          seed := seed, rspStatus := 0#3, rspRes := ⟨fadd (fmul (fsub hi lo) raw) lo, 0, 0, 0⟩ } ∧
        seed.toNat = xorshift s.seed.toNat ∧ isFraction53 raw (seed.toNat / 2 ^ 11)) ∧
    (fgt hi lo = false →
      exec (.rngfs lo hi) s = .next { s with rspStatus := 1#3, rspRes := ⟨0, 0, 0, 0⟩ })

/-- R185: RNGFX maps the float output of X before the advance and advances X once; RANGE, with no advance, unless hi > lo.
SEED is unchanged. -/
def Obligations.MultiWordFloatRangeCommand : Prop :=
  ∀ (lo hi c : Word) (s : State),
    decode ⟨0x00000059#32, lo, hi, c⟩ = .ok (.rngfx lo hi) ∧
    (fgt hi lo = true →
      ∃ raw : Word,
        exec (.rngfx lo hi) s = .next { s with
          x := advanced s.x, rspStatus := 0#3, rspRes := ⟨fadd (fmul (fsub hi lo) raw) lo, 0, 0, 0⟩ } ∧
        isFraction53 raw ((s.x.x0.toNat + s.x.x3.toNat) % 2 ^ 64 / 2 ^ 11)) ∧
    (fgt hi lo = false →
      exec (.rngfx lo hi) s = .next { s with rspStatus := 1#3, rspRes := ⟨0, 0, 0, 0⟩ })

/-- R186: with finite bounds and a finite difference, an OK result of MAPF, RNGFS or RNGFX lies between its bounds under
IEEE comparison. Derived: the rule's remarks on infinite bounds are in `FloatMapInfiniteCases`. -/
def Obligations.FloatRangeContainment : Prop :=
  ∀ (raw lo hi : Word) (s t : State), t.rspStatus = 0#3 →
    isFinite lo = true → isFinite hi = true → isFinite (fsub hi lo) = true →
    (exec (.mapf raw lo hi) s = .next t ∨ exec (.rngfs lo hi) s = .next t ∨ exec (.rngfx lo hi) s = .next t) →
    isFinite t.rspRes.x0 = true ∧ fle lo t.rspRes.x0 = true ∧ fle t.rspRes.x0 hi = true

/-- R182: when hi - lo overflows, or hi is +inf with finite lo, raw 0 gives the canonical NaN and a positive raw +inf; when
lo is -inf the result is always the canonical NaN. -/
def Obligations.FloatMapInfiniteCases : Prop :=
  ∀ (raw lo hi : Word) (s : State),
    fgt hi lo = true → fge raw 0#64 = true → flt raw 0x3FF0000000000000#64 = true →
    (isFinite lo = true → (isFinite hi = false ∨ isFinite (fsub hi lo) = false) →
      (floatValue raw = 0 → exec (.mapf raw lo hi) s = .next { s with
        rspStatus := 0#3, rspRes := ⟨0x7FF8000000000000#64, 0, 0, 0⟩ }) ∧
      (0 < floatValue raw → exec (.mapf raw lo hi) s = .next { s with
        rspStatus := 0#3, rspRes := ⟨0x7FF0000000000000#64, 0, 0, 0⟩ })) ∧
    (lo = 0xFFF0000000000000#64 → exec (.mapf raw lo hi) s = .next { s with
      rspStatus := 0#3, rspRes := ⟨0x7FF8000000000000#64, 0, 0, 0⟩ })

/-- R180 for `fadd`: the sum of finite numbers is the exact sum rounded to nearest, ties to even. Beyond R180's words, from
IEEE 754 (PRESUMED, log 16): where a sum overflows and to which infinity, and the sign of an exact sum of zero, which is +0
unless both operands are -0. -/
def Obligations.FloatSumNearest : Prop :=
  ∀ a b : Word, isFinite a = true → isFinite b = true →
    roundsTo (fadd a b) (floatValue a + floatValue b) 1 ∧
    (floatValue a + floatValue b = 0 → fadd a b = signedZero (floatSign a && floatSign b))

/-- R180 for `fsub`: the difference of finite numbers is the exact difference rounded to nearest, ties to even. Beyond R180's
words, from IEEE 754 (PRESUMED, log 16): where a difference overflows and to which infinity, and the sign of an exact
difference of zero, which is +0 unless it is -0 minus +0. -/
def Obligations.FloatDifferenceNearest : Prop :=
  ∀ a b : Word, isFinite a = true → isFinite b = true →
    roundsTo (fsub a b) (floatValue a - floatValue b) 1 ∧
    (floatValue a - floatValue b = 0 → fsub a b = signedZero (floatSign a && !floatSign b))

/-- R180 for `fmul`: the product of finite numbers, whose exact value in units of 2^-1074 is the product of the factors' units
over 2^1074, is that value rounded to nearest, ties to even. Beyond R180's words, from IEEE 754 (PRESUMED, log 16): where a
product overflows and to which infinity, and the sign of a product, a zero one among them, which is minus exactly when the
factors' signs differ. -/
def Obligations.FloatProductNearest : Prop :=
  ∀ a b : Word, isFinite a = true → isFinite b = true →
    roundsTo (fmul a b) (floatValue a * floatValue b) oneUnits ∧
    floatSign (fmul a b) = (floatSign a != floatSign b) ∧
    (floatValue (fmul a b) = 0 → fmul a b = signedZero (floatSign a != floatSign b))

/-- R180: every NaN a float operation delivers is the canonical quiet NaN. The last clause, that a NaN operand makes the
result of each of R9's three operations a NaN, is IEEE 754's and not R180's words (PRESUMED, log 16). -/
def Obligations.FloatNaNCanonical : Prop :=
  ∀ a b : Word,
    (isNaN (fadd a b) = true → fadd a b = 0x7FF8000000000000#64) ∧
    (isNaN (fsub a b) = true → fsub a b = 0x7FF8000000000000#64) ∧
    (isNaN (fmul a b) = true → fmul a b = 0x7FF8000000000000#64) ∧
    (isNaN a = true ∨ isNaN b = true →
      isNaN (fadd a b) = true ∧ isNaN (fsub a b) = true ∧ isNaN (fmul a b) = true)

/-- R9: the comparisons are false when either operand is a NaN, and order finite numbers by value, so that +0 and -0
compare equal; +inf lies above and -inf below every finite number. -/
def Obligations.FloatComparisons : Prop :=
  ∀ a b : Word,
    (isNaN a = true ∨ isNaN b = true → fgt a b = false ∧ fge a b = false ∧ flt a b = false) ∧
    (isFinite a = true → isFinite b = true →
      (fgt a b = true ↔ floatValue b < floatValue a) ∧ (fge a b = true ↔ floatValue b ≤ floatValue a) ∧
      (flt a b = true ↔ floatValue a < floatValue b)) ∧
    (isFinite b = true → fgt 0x7FF0000000000000#64 b = true ∧ flt 0xFFF0000000000000#64 b = true)

/-- R10: u53_to_f64 of m < 2^53 is exact, of sign 0, and at most 1 - 2^-53. -/
def Obligations.FractionFloatExact : Prop :=
  ∀ m : Nat, m < 2 ^ 53 → isFraction53 (u53ToF64 m) m ∧ (u53ToF64 m).toNat ≤ 0x3FEFFFFFFFFFFFFF

/-! ### Encoding (30_encoding.md) -/

/-- R77: the three checks in their order, and what an illegal command answers: status ILLEGAL, no state changed, all-zero
results. `OP` is CMD mod 2^8, `NB` the seven bits above it, `RSV` the rest. -/
def Obligations.DecodeLegality : Prop :=
  ∀ c : Command,
    (c.cmd.toNat % 256 ∉ opcodes → decode c = .error .unassignedOpcode) ∧
    (c.cmd.toNat % 256 ∈ opcodes → c.cmd.toNat / 32768 ≠ 0 → decode c = .error .reservedBits) ∧
    (c.cmd.toNat % 256 ∈ opcodes → c.cmd.toNat / 32768 = 0 → c.cmd.toNat / 256 % 128 ≠ 0 →
      c.cmd.toNat % 256 ≠ 0x32 → decode c = .error .bitCountNotZero) ∧
    (c.cmd.toNat % 256 ∈ opcodes → c.cmd.toNat / 32768 = 0 →
      (c.cmd.toNat / 256 % 128 = 0 ∨ c.cmd.toNat % 256 = 0x32) → ∃ i, decode c = .ok i) ∧
    (∀ (e : Illegal) (s : State), decode c = .error e → s.pins.command = c →
      runCommand s = .next { s with rspStatus := 5#3, rspRes := ⟨0, 0, 0, 0⟩ })

/-- Decoding an encoded well-formed instruction gives it back, with every operand at every value. -/
def Obligations.DecodeOfEncode : Prop :=
  ∀ i : Instr, i.wellFormed = true → decode (encode i) = .ok i

/-- R78: a legal command word is the encoding of the instruction it selects, so every command but XBITS has exactly one
word; and what is decoded is well formed. -/
def Obligations.LegalWordUnique : Prop :=
  ∀ (c : Command) (i : Instr), decode c = .ok i → i.wellFormed = true ∧ (encode i).cmd = c.cmd

/-- R71: an operand word the table does not name for a command has no effect on what is decoded. -/
def Obligations.UnusedOperandsIgnored : Prop :=
  ∀ c d : Command, c.cmd = d.cmd →
    (c.cmd.toNat % 256 ∈ [0x10, 0x12, 0x40, 0x41, 0x48, 0x49, 0x50, 0x58, 0x59] → c.opa = d.opa) →
    (c.cmd.toNat % 256 ∈ [0x40, 0x41, 0x48, 0x49, 0x50, 0x58, 0x59] → c.opb = d.opb) →
    (c.cmd.toNat % 256 ∈ [0x40, 0x41, 0x50] → c.opc = d.opc) →
    decode c = decode d

/-- A command written out as little-endian bytes (20_memory.md R58) is read back whole, whatever bytes follow it. The
order of its four words is the model's choice (log 11). -/
def Obligations.CommandBytesRoundTrip : Prop :=
  ∀ (c : Command) (rest : List Byte),
    commandOfBytes (bytesOfCommand c ++ rest) = some (c, rest) ∧
    decodeBytes (bytesOfCommand c ++ rest) =
      match decode c with
      | .ok i => .ok (i, rest)
      | .error e => .error e

/-- Sanity: a word of each family, written out from the patterns of R78, decodes to the command it stands for. -/
def Obligations.SampleWordsDecode : Prop :=
  decodeTableWord 32 0b00000000000000000000000000000010 = some .rdx ∧
  decodeTableWord 32 0b00000000000000000000000000010001 = some .mix ∧
  decodeTableWord 32 0b00000000000000000000000000100000 = some .xsf ∧
  decodeTableWord 32 0b00000000000000000100000000110010 = some (.xbits 64) ∧
  decodeTableWord 32 0b00000000000000000000000001001001 = some (.rngi 0 0) ∧
  decodeTableWord 32 0b00000000000000000000000001011001 = some (.rngfx 0 0)

/-- R80: the command words of the pseudo-instructions. -/
def Obligations.PseudoInstructionWords : Prop :=
  encode Pseudo.xu8.expand = ⟨0x00000832#32, 0, 0, 0⟩ ∧
  encode Pseudo.xu16.expand = ⟨0x00001032#32, 0, 0, 0⟩ ∧
  encode Pseudo.xu32.expand = ⟨0x00002032#32, 0, 0, 0⟩ ∧
  encode Pseudo.reseed.expand = ⟨0x00000010#32, 0, 0, 0⟩ ∧
  encode Pseudo.nextScalarFloat.expand = ⟨0x00000020#32, 0, 0, 0⟩ ∧
  encode Pseudo.nextU64.expand = ⟨0x00000030#32, 0, 0, 0⟩ ∧
  encode Pseudo.nextI64.expand = ⟨0x00000031#32, 0, 0, 0⟩ ∧
  (∀ b : Nat, b ≤ 127 → encode (Pseudo.nextBits b).expand = ⟨BitVec.ofNat 32 (b * 256 + 0x32), 0, 0, 0⟩) ∧
  (∀ v : Word, encode (Pseudo.initializeSeed v).expand = ⟨0x00000010#32, v, 0, 0⟩)

/-! ### Commands as a whole (10_state.md, 20_memory.md, 60_exceptions.md, 70_reset_and_hazards.md) -/

/-- R205: no command reaches an abort path: every one goes on. That it leaves the waiting
time, the ports and the draw counters as they are, all but its response, speaks of the model's own fields for the interface
(logs 1, 3 and 6) and not of R205. -/
def Obligations.EveryCommandCompletes : Prop :=
  ∀ (i : Instr) (s : State), ∃ t : State, exec i s = .next t ∧
    t.outstanding = s.outstanding ∧ t.pins = s.pins ∧ t.script = s.script ∧
    t.drawStream = s.drawStream ∧ t.drawIndex = s.drawIndex

/-- Every step, from every state and with anything on the ports, goes on: there is no fault and no refusal.
That a step is one clock edge, which also goes on while a response is held or nothing happens, is the model's choice
(log 1). -/
def Obligations.StepNeverStops : Prop :=
  ∀ s : State, goesOn s

/-- R201: the status of a command depends on its command word and operand words alone, never on the state or entropy. -/
def Obligations.StatusFromCommandAlone : Prop :=
  ∀ (i : Instr) (s s' t t' : State), exec i s = .next t → exec i s' = .next t' → t.rspStatus = t'.rspStatus

/-- R202: a command whose status is not OK writes no architectural state, and all four result words are 0. -/
def Obligations.ErrorLeavesState : Prop :=
  ∀ s t : State, runCommand s = .next t → t.rspStatus ≠ 0#3 →
    t.seed = s.seed ∧ t.x = s.x ∧ t.rspRes = ⟨0, 0, 0, 0⟩

/-- R200: which command produces which code. RANGE comes from the range commands alone, OTHER from XBITS and MAPF alone,
ILLEGAL from decode alone; codes 2, 3, 6 and 7 are never produced. -/
def Obligations.StatusProducers : Prop :=
  ∀ (i : Instr) (s t : State), exec i s = .next t →
    (t.rspStatus = 0#3 ∨ t.rspStatus = 1#3 ∨ t.rspStatus = 4#3) ∧
    (t.rspStatus = 1#3 → (∃ lo hi, i = .rngu lo hi ∨ i = .rngi lo hi ∨ i = .rngfs lo hi ∨ i = .rngfx lo hi) ∨
      (∃ raw lo hi, i = .mapu raw lo hi ∨ i = .mapi raw lo hi ∨ i = .mapf raw lo hi)) ∧
    (t.rspStatus = 4#3 → (∃ b, i = .xbits b) ∨ (∃ raw lo hi, i = .mapf raw lo hi))

/-- R234: SEED, MIX, XSF and RNGFS alone move the scalar stream; SEED, XU64, XI64, XBITS, XF, RNGU, RNGI and RNGFX alone
move the multi-word stream; a command whose status is not OK moves neither. -/
def Obligations.StreamMovers : Prop :=
  ∀ (i : Instr) (s t : State), exec i s = .next t →
    (movesScalar i = false ∨ t.rspStatus ≠ 0#3 → t.seed = s.seed) ∧
    (movesMultiWord i = false ∨ t.rspStatus ≠ 0#3 → t.x = s.x)

/-- R60: RDSEED, RDX, MIXP, MAPU, MAPI and MAPF leave the state unchanged, and repeating one gives the same response. -/
def Obligations.ReadOnlyCommandsIdempotent : Prop :=
  ∀ (i : Instr) (s t : State), readOnly i = true → exec i s = .next t →
    t.seed = s.seed ∧ t.x = s.x ∧ exec i t = .next t

/-- R28: a command's response, and the state it leaves, depend only on the state registers before it, on the command and on
the sampled entropy: never on an earlier response or on anything else on the ports. -/
def Obligations.ResponseDependsOnStateAndCommand : Prop :=
  ∀ (i : Instr) (s s' t : State), s.seed = s'.seed → s.x = s'.x → s.pins.entropy = s'.pins.entropy →
    exec i s = .next t →
    ∃ t' : State, exec i s' = .next t' ∧ t'.seed = t.seed ∧ t'.x = t.x ∧
      t'.rspStatus = t.rspStatus ∧ t'.rspRes = t.rspRes

/-- R26: entropy is read by a SEED with operand 0 and by nothing else; that command does what SEED of the entropy value
does. -/
def Obligations.EntropyReadBySeedZeroAlone : Prop :=
  ∀ (i : Instr) (s : State) (e : Word),
    (i ≠ .seed 0 → ∀ t, exec i s = .next t →
      exec i { s with pins := { s.pins with entropy := e } } =
        .next { t with pins := { t.pins with entropy := e } }) ∧
    (e ≠ 0 → ∀ t, exec (.seed e) s = .next t →
      exec (.seed 0) { s with pins := { s.pins with entropy := e } } =
        .next { t with pins := { t.pins with entropy := e } })

/-- R236: with SEED 0, XSF answers +0.0 and RNGFS answers a number equal to lo (the pattern of lo itself unless that is
-0.0, where an exact sum of zero is +0: PRESUMED, log 16), SEED stays 0, and no command but SEED and MIX moves it off 0. -/
def Obligations.ZeroSeedStuck : Prop :=
  ∀ s : State, s.seed = 0 →
    exec .xsf s = .next { s with rspStatus := 0#3, rspRes := ⟨0, 0, 0, 0⟩ } ∧
    (∀ lo hi : Word, fgt hi lo = true → isFinite lo = true → isFinite (fsub hi lo) = true →
      ∃ r : Word, exec (.rngfs lo hi) s = .next { s with rspStatus := 0#3, rspRes := ⟨r, 0, 0, 0⟩ } ∧
        isFinite r = true ∧ floatValue r = floatValue lo ∧ (lo ≠ 0x8000000000000000#64 → r = lo)) ∧
    (∀ (i : Instr) (t : State), (∀ v, i ≠ .seed v) → i ≠ .mix → exec i s = .next t → t.seed = 0)

/-- R35: repeated MIX passes through every 64-bit seed value, and leaves X alone; SEED of 0x8722191A02D60FAC, and SEED of 0
when that is the entropy, leaves SEED 0. -/
def Obligations.MixReachesEverySeed : Prop :=
  (∀ (s : State) (v : Word), ∃ (k : Nat) (t : State), mixTimes k s = .next t ∧ t.seed = v ∧ t.x = s.x) ∧
  (∀ s : State, ∃ t : State, exec (.seed 0x8722191A02D60FAC#64) s = .next t ∧ t.seed = 0) ∧
  (∀ s : State, s.pins.entropy = 0x8722191A02D60FAC#64 → ∃ t : State, exec (.seed 0) s = .next t ∧ t.seed = 0)

/-! ### The generators' functions -/

/-- R110: the finaliser is a bijection, and the four words derived from one seed value are pairwise distinct. -/
def Obligations.FinaliserBijective : Prop :=
  Function.Bijective mixFin ∧
  ∀ v : Word, [(derive4 v).2.x0, (derive4 v).2.x1, (derive4 v).2.x2, (derive4 v).2.x3].Nodup

/-- R130: the xorshift step is a bijection that maps 0 to 0, so no other seed steps to 0. -/
def Obligations.XorshiftBijective : Prop :=
  Function.Bijective xsStep ∧ xsStep 0 = 0 ∧ ∀ s : Word, xsStep s = 0 → s = 0

/-- R141: the advance is a bijection on the 256-bit states that maps the all-zero state to itself. -/
def Obligations.AdvanceBijective : Prop :=
  Function.Bijective xoAdvance ∧ xoAdvance ⟨0, 0, 0, 0⟩ = ⟨0, 0, 0, 0⟩ ∧
  ∀ x : Quad, xoAdvance x = ⟨0, 0, 0, 0⟩ → x = ⟨0, 0, 0, 0⟩

/-! ### Invariants every step keeps -/

/-- R34: no step, an edge in reset among them, makes X[0..3] all zero. -/
def Obligations.StepKeepsMultiWordAlive : Prop :=
  ∀ s t : State, multiWordAlive s → step s = .next t → multiWordAlive t

/-- R34: after reset X[0..3] is not all zero. -/
def Obligations.ResetMultiWordAlive : Prop :=
  multiWordAlive State.reset

/-- Every step keeps the response registers legal: a code of R200 that is produced, zero results beside an error code
(R202), and nothing held while no command is outstanding (R32; that they are cleared when the response is taken is the
model's choice, log 7). -/
def Obligations.StepKeepsResponseLegal : Prop :=
  ∀ s t : State, responseLegal s → step s = .next t → responseLegal t

/-- The response registers are legal after reset. -/
def Obligations.ResetResponseLegal : Prop :=
  responseLegal State.reset

/-! ### The interface (10_state.md R27, R32; 70_reset_and_hazards.md) -/

/-- When the command on the port is accepted and decodes to i, the step is exec of i, and then the wait for its response
begins and the ports take their next values. That the command's step runs at this edge, how the wait is counted and what
it depends on (`drawWait`), and where the next port values come from are the model's choices (logs 2, 3 and 1). -/
def Obligations.StepRunsDecodedCommand : Prop :=
  ∀ (s : State) (i : Instr), s.pins.rstN = true → s.outstanding = none → s.pins.cmdValid = true →
    decode s.pins.command = .ok i →
    accepted s = some s.pins.command ∧
    step s = match exec i s with
      | .next t => .next { t with
          outstanding := some (drawWait t)
          drawIndex := t.drawIndex + 1
          pins := t.script.headD PortIn.quiet
          script := t.script.tail }
      | .fault f => .fault f
      | .refused r => .refused r

/-- An accepted command that does not decode is answered ILLEGAL with zero results, and SEED and X keep their values. The
rest of the step is as in `StepRunsDecodedCommand` (the model's choices: logs 1, 2 and 3). -/
def Obligations.StepAnswersIllegal : Prop :=
  ∀ (s : State) (e : Illegal), s.pins.rstN = true → s.outstanding = none → s.pins.cmdValid = true →
    decode s.pins.command = .error e →
    step s = .next { s with
      rspStatus := 5#3
      rspRes := ⟨0, 0, 0, 0⟩
      outstanding := some (drawWait s)
      drawIndex := s.drawIndex + 1
      pins := s.script.headD PortIn.quiet
      script := s.script.tail }

/-- A word placed by `withFetchWord` is what the very next step decodes and runs, from any state. That placing stands for
the host presenting the command is the model's choice (log 10), as are the command's step at this very edge (log 2) and the
wait that begins with it, `openResponse` (log 3). -/
def Obligations.PlacedWordRuns : Prop :=
  ∀ (s : State) (nbits w : Nat) (i : Instr), decodeTableWord nbits w = some i →
    ∃ u : State, exec i (s.withFetchWord nbits w) = .next u ∧ step (s.withFetchWord nbits w) = .next (openResponse u)

/-- R27, for an edge with `rst_n` 1 (an edge in reset is in `ResetEdgeEffect`): while a command is outstanding no other is
accepted; the response is taken at an edge where it is valid and `rsp_ready` is 1, and its command is outstanding until then.
That SEED and X keep their values throughout rests on the model's choice that the command's own step ran when it was accepted
(log 2), and the wait that grows shorter by one edge on its count of edges (log 3). -/
def Obligations.OneCommandOutstanding : Prop :=
  ∀ (s : State) (n : Nat), s.pins.rstN = true → s.outstanding = some n →
    cmdReady s = false ∧ accepted s = none ∧
    taken s = (if n = 0 ∧ s.pins.rspReady = true then some (s.rspStatus, s.rspRes) else none) ∧
    ∃ t : State, step s = .next t ∧ t.seed = s.seed ∧ t.x = s.x ∧
      (taken s = none → t.outstanding = some (n - 1) ∧ t.rspStatus = s.rspStatus ∧ t.rspRes = s.rspRes) ∧
      (taken s ≠ none → t.outstanding = none)

/-- R239: an edge on which the host gives no command, or does not take the response that waits, changes nothing but the
ports, so a host that never takes its response leaves the block waiting for ever. Where the next port values come from is
the model's choice (log 1). -/
def Obligations.NoHandshakeNoEffect : Prop :=
  ∀ s : State, s.pins.rstN = true →
    ((s.outstanding = none ∧ s.pins.cmdValid = false) ∨ (s.outstanding = some 0 ∧ s.pins.rspReady = false)) →
    step s = .next { s with pins := s.script.headD PortIn.quiet, script := s.script.tail }

/-- R241: the response of an outstanding command becomes valid after exactly the edges that are left, never earlier, with
the status and results its command left, as long as no edge is in reset; SEED and X keep their values meanwhile. That the
registers and the response stand at their final values all through the wait rests on the model's choice that the command's
step ran when it was accepted (log 2). That the wait is a count of edges held in the state is the model's choice too (log 3),
as is a host that does nothing once its script has run out (log 1). -/
def Obligations.ResponseDelivered : Prop :=
  ∀ (n k : Nat) (s : State), k ≤ n → s.outstanding = some n → noResetFor k s →
    ∃ t : State, Host.Core.run Sys2Proof.core k s = .next t ∧ t.outstanding = some (n - k) ∧
      t.rspStatus = s.rspStatus ∧ t.rspRes = s.rspRes ∧ t.seed = s.seed ∧ t.x = s.x

/-- R230: an edge with `rst_n` 0, whatever the block was doing, drives `cmd_ready` and `rsp_valid` to 0, sets the five
registers to their reset values and discards the outstanding command; at the first edge with `rst_n` 1 after it the
interface is idle and the response ports read 0. That no command is accepted and no response taken at the edge in reset
itself is DEDUCED (log 14). -/
def Obligations.ResetEdgeEffect : Prop :=
  ∀ s : State, s.pins.rstN = false →
    cmdReady s = false ∧ rspValid s = false ∧ accepted s = none ∧ taken s = none ∧
    ∃ t : State, step s = .next t ∧ t.seed = State.reset.seed ∧ t.x = State.reset.x ∧ t.outstanding = none ∧
      (t.pins.rstN = true →
        cmdReady t = true ∧ rspValid t = false ∧ rspStatusPort t = 0#3 ∧ rspResPort t = ⟨0, 0, 0, 0⟩)

/-- R30, R31, R32 and R33: after reset SEED is RESET_SEED, which is not 0, X is what SEED would derive from RESET_XBASE, no
command is outstanding, and whatever the other ports carry `cmd_ready` is 1 at an edge with `rst_n` 1, `rsp_valid` is 0 and
the response ports read 0. -/
def Obligations.ResetState : Prop :=
  State.reset.seed = Config.resetSeed ∧ Config.resetSeed ≠ 0 ∧
  (∀ s : State, ∃ t : State,
    exec (.seed Config.resetXBase) { s with pins := { s.pins with entropy := Config.resetXBase } } = .next t ∧
    t.x = State.reset.x) ∧
  State.reset.outstanding = none ∧
  ∀ p : PortIn,
    cmdReady { State.reset with pins := p } = p.rstN ∧ rspValid { State.reset with pins := p } = false ∧
    rspStatusPort { State.reset with pins := p } = 0#3 ∧ rspResPort { State.reset with pins := p } = ⟨0, 0, 0, 0⟩

/-- R36: a step of one instance neither changes nor depends on the state of another, and steps of two instances give the
same platform in either order. That a platform is a list of blocks stepped one at a time, and with it the last clause, is
DEDUCED from R53 (log 9). -/
def Obligations.InstancesIsolated : Prop :=
  ∀ (j k : Nat) (p q : Platform), platformStep k p = .next q →
    q.blocks.length = p.blocks.length ∧
    (∀ i, i ≠ k → q.blocks[i]? = p.blocks[i]?) ∧
    (∀ s, p.blocks[k]? = some s → ∃ t, step s = .next t ∧ q.blocks[k]? = some t) ∧
    (j ≠ k → ∀ r, platformStep j q = .next r →
      ∃ q', platformStep j p = .next q' ∧ platformStep k q' = .next r)
end

