-- ==== Sys2Proof/Laws/Decode.lean ====
section
/-! SUPPORT. The fields of a command word as numbers and as parts of an encoded word. -/

namespace Sys2Proof

theorem opField_toNat (c : CmdWord) : (opField c).toNat = c.toNat % 256 := by
  simp [opField]

theorem nbField_toNat (c : CmdWord) : (nbField c).toNat = c.toNat / 256 % 128 := by
  simp [nbField, Nat.shiftRight_eq_div_pow]

theorem rsvField_toNat (c : CmdWord) : (rsvField c).toNat = c.toNat / 32768 := by
  have := c.isLt
  simp [rsvField, Nat.shiftRight_eq_div_pow]
  omega

variable (nb : BitVec 7) (op : BitVec 8)

theorem f1Word_toNat : ((0#17 ++ nb ++ op : CmdWord)).toNat = nb.toNat * 256 + op.toNat := by
  have h1 := nb.isLt
  have h2 := op.isLt
  have h3 : nb.toNat * 2 ^ 8 ||| op.toNat = nb.toNat * 2 ^ 8 + op.toNat := by
    rw [Nat.mul_comm]; exact (Nat.two_pow_add_eq_or_of_lt h2 _).symm
  change (((0#17 ++ nb : BitVec (17 + 7)) ++ op : BitVec (17 + 7 + 8))).toNat = _
  have h4 : (0#17).toNat <<< 7 ||| nb.toNat = nb.toNat := by simp
  rw [BitVec.toNat_append, BitVec.toNat_append, h4, Nat.shiftLeft_eq, h3]
  rfl

theorem opField_f1Word : opField (0#17 ++ nb ++ op) = op := by
  have h2 := op.isLt
  apply BitVec.eq_of_toNat_eq
  rw [opField_toNat, f1Word_toNat]
  omega

theorem nbField_f1Word : nbField (0#17 ++ nb ++ op) = nb := by
  have h1 := nb.isLt
  have h2 := op.isLt
  apply BitVec.eq_of_toNat_eq
  rw [nbField_toNat, f1Word_toNat]
  omega

theorem rsvField_f1Word : rsvField (0#17 ++ nb ++ op) = 0#17 := by
  have h1 := nb.isLt
  have h2 := op.isLt
  apply BitVec.eq_of_toNat_eq
  rw [rsvField_toNat, f1Word_toNat]
  simp
  omega

/-- Everything `instrOfOpcode` can answer: one of the 17 opcodes with its instruction, or another opcode and nothing. -/
theorem instrOfOpcode_cases (c : Command) :
    (opField c.cmd = 0x01#8 ∧ instrOfOpcode c = some (.rdseed)) ∨
    (opField c.cmd = 0x02#8 ∧ instrOfOpcode c = some (.rdx)) ∨
    (opField c.cmd = 0x10#8 ∧ instrOfOpcode c = some (.seed c.opa)) ∨
    (opField c.cmd = 0x11#8 ∧ instrOfOpcode c = some (.mix)) ∨
    (opField c.cmd = 0x12#8 ∧ instrOfOpcode c = some (.mixp c.opa)) ∨
    (opField c.cmd = 0x20#8 ∧ instrOfOpcode c = some (.xsf)) ∨
    (opField c.cmd = 0x30#8 ∧ instrOfOpcode c = some (.xu64)) ∨
    (opField c.cmd = 0x31#8 ∧ instrOfOpcode c = some (.xi64)) ∨
    (opField c.cmd = 0x32#8 ∧ instrOfOpcode c = some (.xbits (nbField c.cmd).toNat)) ∨
    (opField c.cmd = 0x33#8 ∧ instrOfOpcode c = some (.xf)) ∨
    (opField c.cmd = 0x40#8 ∧ instrOfOpcode c = some (.mapu c.opc c.opa c.opb)) ∨
    (opField c.cmd = 0x41#8 ∧ instrOfOpcode c = some (.mapi c.opc c.opa c.opb)) ∨
    (opField c.cmd = 0x48#8 ∧ instrOfOpcode c = some (.rngu c.opa c.opb)) ∨
    (opField c.cmd = 0x49#8 ∧ instrOfOpcode c = some (.rngi c.opa c.opb)) ∨
    (opField c.cmd = 0x50#8 ∧ instrOfOpcode c = some (.mapf c.opc c.opa c.opb)) ∨
    (opField c.cmd = 0x58#8 ∧ instrOfOpcode c = some (.rngfs c.opa c.opb)) ∨
    (opField c.cmd = 0x59#8 ∧ instrOfOpcode c = some (.rngfx c.opa c.opb)) ∨
    ((∀ v ∈ [0x01#8, 0x02#8, 0x10#8, 0x11#8, 0x12#8, 0x20#8, 0x30#8, 0x31#8, 0x32#8,
      0x33#8, 0x40#8, 0x41#8, 0x48#8, 0x49#8, 0x50#8, 0x58#8, 0x59#8], opField c.cmd ≠ v) ∧
      instrOfOpcode c = none) := by
  unfold instrOfOpcode
  by_cases h1 : opField c.cmd = 0x01#8
  · exact .inl ⟨h1, if_pos h1⟩
  refine .inr ?_
  simp only [if_neg h1]
  by_cases h2 : opField c.cmd = 0x02#8
  · exact .inl ⟨h2, if_pos h2⟩
  refine .inr ?_
  simp only [if_neg h2]
  by_cases h3 : opField c.cmd = 0x10#8
  · exact .inl ⟨h3, if_pos h3⟩
  refine .inr ?_
  simp only [if_neg h3]
  by_cases h4 : opField c.cmd = 0x11#8
  · exact .inl ⟨h4, if_pos h4⟩
  refine .inr ?_
  simp only [if_neg h4]
  by_cases h5 : opField c.cmd = 0x12#8
  · exact .inl ⟨h5, if_pos h5⟩
  refine .inr ?_
  simp only [if_neg h5]
  by_cases h6 : opField c.cmd = 0x20#8
  · exact .inl ⟨h6, if_pos h6⟩
  refine .inr ?_
  simp only [if_neg h6]
  by_cases h7 : opField c.cmd = 0x30#8
  · exact .inl ⟨h7, if_pos h7⟩
  refine .inr ?_
  simp only [if_neg h7]
  by_cases h8 : opField c.cmd = 0x31#8
  · exact .inl ⟨h8, if_pos h8⟩
  refine .inr ?_
  simp only [if_neg h8]
  by_cases h9 : opField c.cmd = 0x32#8
  · exact .inl ⟨h9, if_pos h9⟩
  refine .inr ?_
  simp only [if_neg h9]
  by_cases h10 : opField c.cmd = 0x33#8
  · exact .inl ⟨h10, if_pos h10⟩
  refine .inr ?_
  simp only [if_neg h10]
  by_cases h11 : opField c.cmd = 0x40#8
  · exact .inl ⟨h11, if_pos h11⟩
  refine .inr ?_
  simp only [if_neg h11]
  by_cases h12 : opField c.cmd = 0x41#8
  · exact .inl ⟨h12, if_pos h12⟩
  refine .inr ?_
  simp only [if_neg h12]
  by_cases h13 : opField c.cmd = 0x48#8
  · exact .inl ⟨h13, if_pos h13⟩
  refine .inr ?_
  simp only [if_neg h13]
  by_cases h14 : opField c.cmd = 0x49#8
  · exact .inl ⟨h14, if_pos h14⟩
  refine .inr ?_
  simp only [if_neg h14]
  by_cases h15 : opField c.cmd = 0x50#8
  · exact .inl ⟨h15, if_pos h15⟩
  refine .inr ?_
  simp only [if_neg h15]
  by_cases h16 : opField c.cmd = 0x58#8
  · exact .inl ⟨h16, if_pos h16⟩
  refine .inr ?_
  simp only [if_neg h16]
  by_cases h17 : opField c.cmd = 0x59#8
  · exact .inl ⟨h17, if_pos h17⟩
  refine .inr ?_
  simp only [if_neg h17]
  refine ⟨?_, trivial⟩
  simp only [List.mem_cons, List.not_mem_nil, or_false]
  rintro v (rfl | rfl | rfl | rfl | rfl | rfl | rfl | rfl | rfl | rfl | rfl | rfl | rfl | rfl | rfl | rfl | rfl)
  all_goals assumption

/-- An accepted command word has `RSV` 0 and, but for XBITS, `NB` 0; and its opcode selects the instruction. -/
theorem decode_ok_iff (c : Command) (i : Instr) :
    decode c = .ok i ↔
      instrOfOpcode c = some i ∧ rsvField c.cmd = 0#17 ∧ (nbField c.cmd = 0#7 ∨ opField c.cmd = 0x32#8) := by
  unfold decode
  cases instrOfOpcode c with
  | none => simp
  | some j =>
    by_cases h1 : rsvField c.cmd = 0#17
    · by_cases h2 : nbField c.cmd = 0#7
      · simp [h1, h2]
      · by_cases h3 : opField c.cmd = 0x32#8
        · simp [h1, h3]
        · simp [h1, h2, h3]
    · simp [h1]

theorem littleEndian_length : ∀ n w, (littleEndian n w).length = n
  | 0, _ => rfl
  | n + 1, w => by simp [littleEndian, littleEndian_length n (w / 256)]

theorem ofLittleEndian_littleEndian : ∀ n w, ofLittleEndian (littleEndian n w) = w % 256 ^ n
  | 0, w => by simp [littleEndian, ofLittleEndian, Nat.mod_one]
  | n + 1, w => by
    have := ofLittleEndian_littleEndian n (w / 256)
    have split := Nat.mod_mul (x := w) (a := 256) (b := 256 ^ n)
    have power : 256 ^ (n + 1) = 256 * 256 ^ n := Nat.pow_succ'
    rw [littleEndian, ofLittleEndian, this, BitVec.toNat_ofNat, power, split]

end Sys2Proof
end

