-- ==== Sys2Proof/Laws/State.lean ====
section
/-! SUPPORT. One lemma per field per update of State, true by rfl, so that no later proof unfolds a record update. -/

namespace Sys2Proof.Machine

variable (s : State)

/-! ### setSeed -/

@[simp] theorem setSeed_seed (v : Word) : (setSeed s v).seed = v := rfl
@[simp] theorem setSeed_x (v : Word) : (setSeed s v).x = s.x := rfl
@[simp] theorem setSeed_rspStatus (v : Word) : (setSeed s v).rspStatus = s.rspStatus := rfl
@[simp] theorem setSeed_rspRes (v : Word) : (setSeed s v).rspRes = s.rspRes := rfl
@[simp] theorem setSeed_outstanding (v : Word) : (setSeed s v).outstanding = s.outstanding := rfl
@[simp] theorem setSeed_pins (v : Word) : (setSeed s v).pins = s.pins := rfl
@[simp] theorem setSeed_script (v : Word) : (setSeed s v).script = s.script := rfl
@[simp] theorem setSeed_drawStream (v : Word) : (setSeed s v).drawStream = s.drawStream := rfl
@[simp] theorem setSeed_drawIndex (v : Word) : (setSeed s v).drawIndex = s.drawIndex := rfl

/-! ### setX -/

@[simp] theorem setX_seed (v : Quad) : (setX s v).seed = s.seed := rfl
@[simp] theorem setX_x (v : Quad) : (setX s v).x = v := rfl
@[simp] theorem setX_rspStatus (v : Quad) : (setX s v).rspStatus = s.rspStatus := rfl
@[simp] theorem setX_rspRes (v : Quad) : (setX s v).rspRes = s.rspRes := rfl
@[simp] theorem setX_outstanding (v : Quad) : (setX s v).outstanding = s.outstanding := rfl
@[simp] theorem setX_pins (v : Quad) : (setX s v).pins = s.pins := rfl
@[simp] theorem setX_script (v : Quad) : (setX s v).script = s.script := rfl
@[simp] theorem setX_drawStream (v : Quad) : (setX s v).drawStream = s.drawStream := rfl
@[simp] theorem setX_drawIndex (v : Quad) : (setX s v).drawIndex = s.drawIndex := rfl

/-! ### respond -/

@[simp] theorem respond_seed (st : Status) (r : Quad) : (respond s st r).seed = s.seed := rfl
@[simp] theorem respond_x (st : Status) (r : Quad) : (respond s st r).x = s.x := rfl
@[simp] theorem respond_rspStatus (st : Status) (r : Quad) : (respond s st r).rspStatus = statusCode st := rfl
@[simp] theorem respond_rspRes (st : Status) (r : Quad) : (respond s st r).rspRes = r := rfl
@[simp] theorem respond_outstanding (st : Status) (r : Quad) : (respond s st r).outstanding = s.outstanding := rfl
@[simp] theorem respond_pins (st : Status) (r : Quad) : (respond s st r).pins = s.pins := rfl
@[simp] theorem respond_script (st : Status) (r : Quad) : (respond s st r).script = s.script := rfl
@[simp] theorem respond_drawStream (st : Status) (r : Quad) : (respond s st r).drawStream = s.drawStream := rfl
@[simp] theorem respond_drawIndex (st : Status) (r : Quad) : (respond s st r).drawIndex = s.drawIndex := rfl

/-! ### stepScalar -/

@[simp] theorem stepScalar_seed : (stepScalar s).seed = xsStep s.seed := rfl
@[simp] theorem stepScalar_x : (stepScalar s).x = s.x := rfl
@[simp] theorem stepScalar_rspStatus : (stepScalar s).rspStatus = s.rspStatus := rfl
@[simp] theorem stepScalar_rspRes : (stepScalar s).rspRes = s.rspRes := rfl
@[simp] theorem stepScalar_outstanding : (stepScalar s).outstanding = s.outstanding := rfl
@[simp] theorem stepScalar_pins : (stepScalar s).pins = s.pins := rfl
@[simp] theorem stepScalar_script : (stepScalar s).script = s.script := rfl
@[simp] theorem stepScalar_drawStream : (stepScalar s).drawStream = s.drawStream := rfl
@[simp] theorem stepScalar_drawIndex : (stepScalar s).drawIndex = s.drawIndex := rfl

/-! ### advanceX -/

@[simp] theorem advanceX_seed : (advanceX s).seed = s.seed := rfl
@[simp] theorem advanceX_x : (advanceX s).x = xoAdvance s.x := rfl
@[simp] theorem advanceX_rspStatus : (advanceX s).rspStatus = s.rspStatus := rfl
@[simp] theorem advanceX_rspRes : (advanceX s).rspRes = s.rspRes := rfl
@[simp] theorem advanceX_outstanding : (advanceX s).outstanding = s.outstanding := rfl
@[simp] theorem advanceX_pins : (advanceX s).pins = s.pins := rfl
@[simp] theorem advanceX_script : (advanceX s).script = s.script := rfl
@[simp] theorem advanceX_drawStream : (advanceX s).drawStream = s.drawStream := rfl
@[simp] theorem advanceX_drawIndex : (advanceX s).drawIndex = s.drawIndex := rfl

/-! ### nextPins -/

@[simp] theorem nextPins_seed : (nextPins s).seed = s.seed := rfl
@[simp] theorem nextPins_x : (nextPins s).x = s.x := rfl
@[simp] theorem nextPins_rspStatus : (nextPins s).rspStatus = s.rspStatus := rfl
@[simp] theorem nextPins_rspRes : (nextPins s).rspRes = s.rspRes := rfl
@[simp] theorem nextPins_outstanding : (nextPins s).outstanding = s.outstanding := rfl
@[simp] theorem nextPins_pins : (nextPins s).pins = s.script.headD PortIn.quiet := rfl
@[simp] theorem nextPins_script : (nextPins s).script = s.script.tail := rfl
@[simp] theorem nextPins_drawStream : (nextPins s).drawStream = s.drawStream := rfl
@[simp] theorem nextPins_drawIndex : (nextPins s).drawIndex = s.drawIndex := rfl

/-! ### openResponse -/

@[simp] theorem openResponse_seed : (openResponse s).seed = s.seed := rfl
@[simp] theorem openResponse_x : (openResponse s).x = s.x := rfl
@[simp] theorem openResponse_rspStatus : (openResponse s).rspStatus = s.rspStatus := rfl
@[simp] theorem openResponse_rspRes : (openResponse s).rspRes = s.rspRes := rfl
@[simp] theorem openResponse_outstanding : (openResponse s).outstanding = some (drawWait s) := rfl
@[simp] theorem openResponse_pins : (openResponse s).pins = s.script.headD PortIn.quiet := rfl
@[simp] theorem openResponse_script : (openResponse s).script = s.script.tail := rfl
@[simp] theorem openResponse_drawStream : (openResponse s).drawStream = s.drawStream := rfl
@[simp] theorem openResponse_drawIndex : (openResponse s).drawIndex = s.drawIndex + 1 := rfl

/-! ### waitEdge -/

@[simp] theorem waitEdge_seed (n : Nat) : (waitEdge s n).seed = s.seed := rfl
@[simp] theorem waitEdge_x (n : Nat) : (waitEdge s n).x = s.x := rfl
@[simp] theorem waitEdge_rspStatus (n : Nat) : (waitEdge s n).rspStatus = s.rspStatus := rfl
@[simp] theorem waitEdge_rspRes (n : Nat) : (waitEdge s n).rspRes = s.rspRes := rfl
@[simp] theorem waitEdge_outstanding (n : Nat) : (waitEdge s n).outstanding = some n := rfl
@[simp] theorem waitEdge_pins (n : Nat) : (waitEdge s n).pins = s.script.headD PortIn.quiet := rfl
@[simp] theorem waitEdge_script (n : Nat) : (waitEdge s n).script = s.script.tail := rfl
@[simp] theorem waitEdge_drawStream (n : Nat) : (waitEdge s n).drawStream = s.drawStream := rfl
@[simp] theorem waitEdge_drawIndex (n : Nat) : (waitEdge s n).drawIndex = s.drawIndex := rfl

/-! ### takeEdge -/

@[simp] theorem takeEdge_seed : (takeEdge s).seed = s.seed := rfl
@[simp] theorem takeEdge_x : (takeEdge s).x = s.x := rfl
@[simp] theorem takeEdge_rspStatus : (takeEdge s).rspStatus = 0#3 := rfl
@[simp] theorem takeEdge_rspRes : (takeEdge s).rspRes = Quad.zero := rfl
@[simp] theorem takeEdge_outstanding : (takeEdge s).outstanding = none := rfl
@[simp] theorem takeEdge_pins : (takeEdge s).pins = s.script.headD PortIn.quiet := rfl
@[simp] theorem takeEdge_script : (takeEdge s).script = s.script.tail := rfl
@[simp] theorem takeEdge_drawStream : (takeEdge s).drawStream = s.drawStream := rfl
@[simp] theorem takeEdge_drawIndex : (takeEdge s).drawIndex = s.drawIndex := rfl

/-! ### resetEdge -/

@[simp] theorem resetEdge_seed : (resetEdge s).seed = Config.resetSeed := rfl
@[simp] theorem resetEdge_x : (resetEdge s).x = (derive4 Config.resetXBase).2 := rfl
@[simp] theorem resetEdge_rspStatus : (resetEdge s).rspStatus = 0#3 := rfl
@[simp] theorem resetEdge_rspRes : (resetEdge s).rspRes = Quad.zero := rfl
@[simp] theorem resetEdge_outstanding : (resetEdge s).outstanding = none := rfl
@[simp] theorem resetEdge_pins : (resetEdge s).pins = s.script.headD PortIn.quiet := rfl
@[simp] theorem resetEdge_script : (resetEdge s).script = s.script.tail := rfl
@[simp] theorem resetEdge_drawStream : (resetEdge s).drawStream = s.drawStream := rfl
@[simp] theorem resetEdge_drawIndex : (resetEdge s).drawIndex = s.drawIndex := rfl

/-! ### withFetchWord -/

@[simp] theorem withFetchWord_seed (nbits w : Nat) : (s.withFetchWord nbits w).seed = s.seed := rfl
@[simp] theorem withFetchWord_x (nbits w : Nat) : (s.withFetchWord nbits w).x = s.x := rfl
@[simp] theorem withFetchWord_rspStatus (nbits w : Nat) : (s.withFetchWord nbits w).rspStatus = s.rspStatus := rfl
@[simp] theorem withFetchWord_rspRes (nbits w : Nat) : (s.withFetchWord nbits w).rspRes = s.rspRes := rfl
@[simp] theorem withFetchWord_outstanding (nbits w : Nat) : (s.withFetchWord nbits w).outstanding = none := rfl
@[simp] theorem withFetchWord_pins (nbits w : Nat) : (s.withFetchWord nbits w).pins = presentCommand s (commandOfNumber nbits w) := rfl
@[simp] theorem withFetchWord_script (nbits w : Nat) : (s.withFetchWord nbits w).script = s.script := rfl
@[simp] theorem withFetchWord_drawStream (nbits w : Nat) : (s.withFetchWord nbits w).drawStream = s.drawStream := rfl
@[simp] theorem withFetchWord_drawIndex (nbits w : Nat) : (s.withFetchWord nbits w).drawIndex = s.drawIndex := rfl

end Sys2Proof.Machine
end

