-- ==== Sys2Proof/Laws/Ops.lean ====
section
/-! SUPPORT. One lemma for each shared operation: everything it can do. -/

namespace Sys2Proof.Machine

variable {s t : State}

theorem complete_next (res : Quad) (h : complete s res = .next t) : t = respond s .ok res := by
  injection h with h; exact h.symm

theorem reject_next (st : Status) (h : reject s st = .next t) : t = respond s st Quad.zero := by
  injection h with h; exact h.symm

/-- `completeMapped` always goes on: with the mapped word, or with the status the mapping raised. -/
theorem completeMapped_next (r : Except Status Word) :
    (∃ w, r = .ok w ∧ completeMapped s r = .next (respond s .ok (Quad.single w))) ∨
    (∃ st, r = .error st ∧ completeMapped s r = .next (respond s st Quad.zero)) := by
  cases r with
  | ok w => exact .inl ⟨w, rfl, rfl⟩
  | error st => exact .inr ⟨st, rfl, rfl⟩

/-- `completeDrawn` goes on exactly when the mapping did not raise. -/
theorem completeDrawn_next_iff (r : Except Status Word) :
    completeDrawn s r = .next t ↔ ∃ w, r = .ok w ∧ t = respond s .ok (Quad.single w) := by
  cases r with
  | ok w =>
    constructor
    · intro h; exact ⟨w, rfl, complete_next _ h⟩
    · rintro ⟨v, hv, rfl⟩; cases hv; rfl
  | error st =>
    constructor
    · intro h; cases h
    · rintro ⟨v, hv, -⟩; cases hv

theorem mapU_of_ok (raw : Word) {lo hi : Word} (h : rangeOkU lo hi = true) :
    mapU raw lo hi = .ok (BitVec.ofNat 64 (raw.toNat % (hi.toNat - lo.toNat + 1) + lo.toNat)) := by
  simp [mapU, h]

theorem mapI_of_ok (raw : Word) {lo hi : Word} (h : rangeOkI lo hi = true) :
    mapI raw lo hi = .ok (BitVec.ofNat 64 (raw.toNat % ((hi - lo).toNat + 1)) + lo) := by
  simp [mapI, h]

theorem mapF_of_ok {raw lo hi : Word} (h : rangeOkF lo hi = true) (hr : rawOkF raw = true) :
    mapF raw lo hi = .ok (lerpF raw lo hi) := by
  simp [mapF, h, hr]

/-- `t` differs from `s` in SEED, X and the response registers at most, and its status is a `Status`'s code. -/
def sameInterface (s t : State) : Prop :=
  ∃ seed x st res, t = { s with seed := seed, x := x, rspStatus := statusCode st, rspRes := res }

theorem respond_sameInterface (st : Status) (res : Quad) : sameInterface s (respond s st res) :=
  ⟨s.seed, s.x, st, res, rfl⟩

theorem respond_setSeed_sameInterface (v : Word) (st : Status) (res : Quad) :
    sameInterface s (respond (setSeed s v) st res) :=
  ⟨v, s.x, st, res, rfl⟩

theorem respond_setX_sameInterface (v : Quad) (st : Status) (res : Quad) :
    sameInterface s (respond (setX s v) st res) :=
  ⟨s.seed, v, st, res, rfl⟩

theorem respond_setX_setSeed_sameInterface (v : Word) (q : Quad) (st : Status) (res : Quad) :
    sameInterface s (respond (setX (setSeed s v) q) st res) :=
  ⟨v, q, st, res, rfl⟩

theorem completeMapped_sameInterface {r : Except Status Word} (h : completeMapped s r = .next t) :
    sameInterface s t := by
  cases r with
  | ok w => rw [complete_next _ h]; exact respond_sameInterface _ _
  | error st => rw [reject_next _ h]; exact respond_sameInterface _ _

theorem completeDrawn_advanceX_sameInterface {r : Except Status Word}
    (h : completeDrawn (advanceX s) r = .next t) : sameInterface s t := by
  obtain ⟨w, -, rfl⟩ := (completeDrawn_next_iff r).mp h
  exact respond_setX_sameInterface _ _ _

theorem completeDrawn_stepScalar_sameInterface {r : Except Status Word}
    (h : completeDrawn (stepScalar s) r = .next t) : sameInterface s t := by
  obtain ⟨w, -, rfl⟩ := (completeDrawn_next_iff r).mp h
  exact respond_setSeed_sameInterface _ _ _

theorem drawWord_sameInterface (h : drawWord s = .next t) : sameInterface s t := by
  rw [complete_next _ h]; exact respond_setX_sameInterface _ _ _

/-- What any meaning that goes on does: it writes SEED, X and the response registers at most. -/
theorem exec_sameInterface {i : Instr} (h : exec i s = .next t) : sameInterface s t := by
  cases i
  case rdseed =>
    replace h : execRdseed s = .next t := h
    unfold execRdseed at h
    rw [complete_next _ h]; exact respond_sameInterface _ _
  case rdx =>
    replace h : execRdx s = .next t := h
    unfold execRdx at h
    rw [complete_next _ h]; exact respond_sameInterface _ _
  case seed value =>
    replace h : execSeed value s = .next t := h
    unfold execSeed at h; rw [complete_next _ h]; exact respond_setX_setSeed_sameInterface _ _ _ _
  case mix =>
    replace h : execMix s = .next t := h
    unfold execMix at h
    rw [complete_next _ h]; exact respond_setSeed_sameInterface _ _ _
  case mixp w =>
    replace h : execMixp w s = .next t := h
    unfold execMixp at h
    rw [complete_next _ h]; exact respond_sameInterface _ _
  case xsf =>
    replace h : execXsf s = .next t := h
    unfold execXsf at h
    rw [complete_next _ h]; exact respond_setSeed_sameInterface _ _ _
  case xu64 => exact drawWord_sameInterface h
  case xi64 => exact drawWord_sameInterface h
  case xf =>
    replace h : execXf s = .next t := h
    unfold execXf at h
    rw [complete_next _ h]; exact respond_setX_sameInterface _ _ _
  case xbits b =>
    replace h : execXbits b s = .next t := h
    unfold execXbits at h
    split at h
    · rw [complete_next _ h]; exact respond_setX_sameInterface _ _ _
    · rw [reject_next _ h]; exact respond_sameInterface _ _
  case mapu raw lo hi => exact completeMapped_sameInterface h
  case mapi raw lo hi => exact completeMapped_sameInterface h
  case mapf raw lo hi => exact completeMapped_sameInterface h
  case rngu lo hi =>
    replace h : execRngu lo hi s = .next t := h
    unfold execRngu at h
    split at h
    · exact completeDrawn_advanceX_sameInterface h
    · rw [reject_next _ h]; exact respond_sameInterface _ _
  case rngi lo hi =>
    replace h : execRngi lo hi s = .next t := h
    unfold execRngi at h
    split at h
    · exact completeDrawn_advanceX_sameInterface h
    · rw [reject_next _ h]; exact respond_sameInterface _ _
  case rngfs lo hi =>
    replace h : execRngfs lo hi s = .next t := h
    unfold execRngfs at h
    split at h
    · exact completeDrawn_stepScalar_sameInterface h
    · rw [reject_next _ h]; exact respond_sameInterface _ _
  case rngfx lo hi =>
    replace h : execRngfx lo hi s = .next t := h
    unfold execRngfx at h
    split at h
    · exact completeDrawn_advanceX_sameInterface h
    · rw [reject_next _ h]; exact respond_sameInterface _ _

end Sys2Proof.Machine
end

