-- ==== Sys2Proof/Laws/Edge.lean ====
section
/-! SUPPORT. What an edge can do, said once. -/

namespace Sys2Proof.Machine

variable {s t : State}

theorem step_eq_clockEdge (s : State) : step s = clockEdge s := rfl

/-- Every edge that goes on is one of these: an edge in reset, an idle edge, an accepted command, an edge of the wait, a
response held, a response taken. -/
theorem step_cases (h : step s = .next t) :
    (s.pins.rstN = false ∧ t = resetEdge s) ∨
    (s.pins.rstN = true ∧ s.outstanding = none ∧ s.pins.cmdValid = false ∧ t = nextPins s) ∨
    (s.pins.rstN = true ∧ s.outstanding = none ∧ s.pins.cmdValid = true ∧
      ∃ u, runCommand s = .next u ∧ t = openResponse u) ∨
    (s.pins.rstN = true ∧ ∃ n, s.outstanding = some (n + 1) ∧ t = waitEdge s n) ∨
    (s.pins.rstN = true ∧ s.outstanding = some 0 ∧ s.pins.rspReady = false ∧ t = nextPins s) ∨
    (s.pins.rstN = true ∧ s.outstanding = some 0 ∧ s.pins.rspReady = true ∧ t = takeEdge s) := by
  simp only [step, clockEdge] at h
  split at h
  next hr =>
    split at h
    next ho =>
      split at h
      next hv =>
        simp only [acceptEdge] at h
        split at h
        next u hu => exact .inr (.inr (.inl ⟨hr, ho, hv, u, hu, by injection h with h; exact h.symm⟩))
        · cases h
        · cases h
      next hv => exact .inr (.inl ⟨hr, ho, by simpa using hv, by injection h with h; exact h.symm⟩)
    next ho =>
      split at h
      next hv => exact .inr (.inr (.inr (.inr (.inr ⟨hr, ho, hv, by injection h with h; exact h.symm⟩))))
      next hv =>
        exact .inr (.inr (.inr (.inr (.inl ⟨hr, ho, by simpa using hv, by injection h with h; exact h.symm⟩))))
    next n ho => exact .inr (.inr (.inr (.inl ⟨hr, n, ho, by injection h with h; exact h.symm⟩)))
  next hr => exact .inl ⟨by simpa using hr, by injection h with h; exact h.symm⟩

/-- What the accepted command's atomic step does: a decoded instruction's effect, or ILLEGAL. -/
theorem runCommand_cases (h : runCommand s = .next t) :
    (∃ i, decode s.pins.command = .ok i ∧ exec i s = .next t) ∨
    (∃ e, decode s.pins.command = .error e ∧ t = respond s .illegal Quad.zero) := by
  simp only [runCommand] at h
  split at h
  next i hi => exact .inl ⟨i, hi, h⟩
  next e he => exact .inr ⟨e, he, reject_next _ h⟩

end Sys2Proof.Machine
end

