-- ==== Sys2Proof/Laws/Exec.lean ====
section
/-! SUPPORT. One equation per meaning, over the shared operations: proofs rewrite with these and never unfold `exec`. (A
proof by rfl that compares sums with large constants is slow; these lemmas keep the sums closed.) -/

namespace Sys2Proof.Machine

variable (s : State) (raw lo hi : Word)

theorem respond_ok (r : Quad) : respond s .ok r = { s with rspStatus := 0#3, rspRes := r } := rfl

/-! The next three put a whole answer in the form of a record update. Their words are variables: after a rewrite with one of
them the words of a meaning stand in the record as they are, and no proof compares a field with a sum by unfolding it. -/

theorem respond_ok_setSeed (v : Word) (r : Quad) :
    respond (setSeed s v) .ok r = { s with seed := v, rspStatus := 0#3, rspRes := r } := rfl

theorem respond_ok_setX (q r : Quad) :
    respond (setX s q) .ok r = { s with x := q, rspStatus := 0#3, rspRes := r } := rfl

theorem respond_ok_setX_setSeed (v : Word) (q r : Quad) :
    respond (setX (setSeed s v) q) .ok r = { s with seed := v, x := q, rspStatus := 0#3, rspRes := r } := rfl

theorem mixStep_eq (v : Word) : mixStep v = (v + gamma, mixFin (v + gamma)) := rfl

theorem derive4_eq (v : Word) :
    derive4 v = (v + gamma + gamma + gamma + gamma,
      ⟨mixFin (v + gamma), mixFin (v + gamma + gamma), mixFin (v + gamma + gamma + gamma),
        mixFin (v + gamma + gamma + gamma + gamma)⟩) := by
  simp only [derive4, mixStep]

theorem respond_range : respond s .range Quad.zero = { s with rspStatus := 1#3, rspRes := ⟨0, 0, 0, 0⟩ } := rfl

theorem respond_other : respond s .other Quad.zero = { s with rspStatus := 4#3, rspRes := ⟨0, 0, 0, 0⟩ } := rfl

theorem respond_illegal : respond s .illegal Quad.zero = { s with rspStatus := 5#3, rspRes := ⟨0, 0, 0, 0⟩ } := rfl

theorem exec_rdseed : exec .rdseed s = .next (respond s .ok (Quad.single s.seed)) := rfl

theorem exec_rdx : exec .rdx s = .next (respond s .ok s.x) := rfl

theorem exec_seed (v : Word) :
    exec (.seed v) s =
      .next (respond (setX (setSeed s (derive4 (seedValue v s)).1) (derive4 (seedValue v s)).2) .ok Quad.zero) := rfl

theorem exec_mix :
    exec .mix s = .next (respond (setSeed s (mixStep s.seed).1) .ok (Quad.single (mixStep s.seed).2)) := rfl

theorem exec_mixp (w : Word) :
    exec (.mixp w) s = .next (respond s .ok ⟨(mixStep w).2, (mixStep w).1, 0, 0⟩) := rfl

theorem exec_xsf :
    exec .xsf s = .next (respond (setSeed s (xsStep s.seed)) .ok (Quad.single (xsFloat (xsStep s.seed)))) := rfl

theorem exec_xu64 : exec .xu64 s = .next (respond (setX s (xoAdvance s.x)) .ok (Quad.single (xoOutU64 s.x))) := rfl

theorem exec_xi64 : exec .xi64 s = .next (respond (setX s (xoAdvance s.x)) .ok (Quad.single (xoOutU64 s.x))) := rfl

theorem exec_xf : exec .xf s = .next (respond (setX s (xoAdvance s.x)) .ok (Quad.single (xoOutF64 s.x))) := rfl

theorem exec_xbits (b : Nat) :
    exec (.xbits b) s =
      if bitCountOk b then .next (respond (setX s (xoAdvance s.x)) .ok (Quad.single (topBits (xoOutU64 s.x) b)))
      else .next (respond s .other Quad.zero) := rfl

theorem exec_mapu : exec (.mapu raw lo hi) s = completeMapped s (mapU raw lo hi) := rfl

theorem exec_mapi : exec (.mapi raw lo hi) s = completeMapped s (mapI raw lo hi) := rfl

theorem exec_mapf : exec (.mapf raw lo hi) s = completeMapped s (mapF raw lo hi) := rfl

theorem exec_rngu :
    exec (.rngu lo hi) s =
      if rangeOkU lo hi then completeDrawn (setX s (xoAdvance s.x)) (mapU (xoOutU64 s.x) lo hi)
      else .next (respond s .range Quad.zero) := rfl

theorem exec_rngi :
    exec (.rngi lo hi) s =
      if rangeOkI lo hi then completeDrawn (setX s (xoAdvance s.x)) (mapI (xoOutU64 s.x) lo hi)
      else .next (respond s .range Quad.zero) := rfl

theorem exec_rngfs :
    exec (.rngfs lo hi) s =
      if rangeOkF lo hi then completeDrawn (setSeed s (xsStep s.seed)) (mapF (xsFloat (xsStep s.seed)) lo hi)
      else .next (respond s .range Quad.zero) := rfl

theorem exec_rngfx :
    exec (.rngfx lo hi) s =
      if rangeOkF lo hi then completeDrawn (setX s (xoAdvance s.x)) (mapF (xoOutF64 s.x) lo hi)
      else .next (respond s .range Quad.zero) := rfl

end Sys2Proof.Machine
end

