-- ==== Sys2Proof/Laws/Float.lean ====
section
/-! SUPPORT. The float operations in parts: the fields of a pattern, what the operations are on finite numbers, and what
one rounding does. Magnitudes are whole numbers of units of 2^-1074, as in `Machine/Float.lean`. -/

namespace Sys2Proof.Machine

/-! ### The number of bits -/

theorem bitLength_spec {m : Nat} (h : 0 < m) :
    2 ^ (bitLength m - 1) ≤ m ∧ m < 2 ^ bitLength m ∧ 1 ≤ bitLength m := by
  have h0 : m ≠ 0 := by omega
  simp only [bitLength, h0, if_false]
  exact ⟨by simpa using Nat.log2_self_le h0, Nat.lt_log2_self, by omega⟩

theorem lt_two_pow_bitLength (m : Nat) : m < 2 ^ bitLength m := by
  rcases Nat.eq_zero_or_pos m with rfl | h
  · simp [bitLength]
  · exact (bitLength_spec h).2.1

theorem bitLength_le {m k : Nat} (h : m < 2 ^ k) : bitLength m ≤ k := by
  by_cases h0 : m = 0
  · simp [bitLength, h0]
  · have := (Nat.log2_lt h0).mpr h
    simp only [bitLength, h0, if_false]; omega

/-! ### The fields of a pattern -/

/-- The magnitude bits of a pattern are its exponent and its fraction, and the sign stands above them. -/
theorem word_fields (v : Word) :
    v.toNat = (if floatSign v then 2 ^ 63 else 0) + floatExponent v * 2 ^ 52 + floatFraction v ∧
      floatExponent v < 2048 ∧ floatFraction v < 2 ^ 52 := by
  have h := v.isLt
  simp only [floatSign, floatExponent, floatFraction]
  refine ⟨?_, by omega, by omega⟩
  by_cases hs : v.toNat / 2 ^ 63 % 2 = 1 <;> simp only [hs, decide_true, decide_false, if_true] <;> simp <;> omega

theorem floatPattern_fields (neg : Bool) {mag : Nat} (h : mag < 2 ^ 63) :
    floatSign (floatPattern neg mag) = neg ∧ floatExponent (floatPattern neg mag) = mag / 2 ^ 52 ∧
      floatFraction (floatPattern neg mag) = mag % 2 ^ 52 := by
  have e : (floatPattern neg mag).toNat = mag + if neg then 2 ^ 63 else 0 := by
    rw [floatPattern, BitVec.toNat_ofNat, Nat.mod_eq_of_lt]
    cases neg <;> simp <;> omega
  rw [floatSign, floatExponent, floatFraction, e]
  cases neg
  · simp; omega
  · simp; omega

theorem floatPattern_zero_value (neg : Bool) : floatValue (floatPattern neg 0) = 0 := by
  cases neg <;> decide

theorem isNaN_iff (a : Word) : isNaN a = true ↔ floatExponent a = 2047 ∧ floatFraction a ≠ 0 := by
  simp only [isNaN, datum]
  by_cases h1 : floatExponent a = 2047 <;> by_cases h2 : floatFraction a = 0 <;> simp [h1, h2]

theorem datum_of_isFinite {a : Word} (h : isFinite a = true) :
    datum a = .fin (floatSign a) (floatUnits (floatExponent a) (floatFraction a)) := by
  simp [isFinite] at h; simp [datum, h]

/-! ### The operations on finite numbers -/

theorem fle_of_isFinite {a b : Word} (ha : isFinite a = true) (hb : isFinite b = true) :
    fle a b = decide (floatValue a ≤ floatValue b) := by
  rw [fle, datum_of_isFinite ha, datum_of_isFinite hb]; rfl

theorem flt_of_isFinite {a b : Word} (ha : isFinite a = true) (hb : isFinite b = true) :
    flt a b = decide (floatValue a < floatValue b) := by
  rw [flt, datum_of_isFinite ha, datum_of_isFinite hb]; rfl

theorem fadd_of_isFinite {a b : Word} (ha : isFinite a = true) (hb : isFinite b = true) :
    fadd a b =
      if floatValue a + floatValue b = 0 then floatPattern (floatSign a && floatSign b) 0
      else roundFloat (decide (floatValue a + floatValue b < 0)) (floatValue a + floatValue b).natAbs 1 := by
  rw [fadd, datum_of_isFinite ha, datum_of_isFinite hb]; rfl

theorem fmul_of_isFinite {a b : Word} (ha : isFinite a = true) (hb : isFinite b = true) :
    fmul a b = roundFloat (floatSign a != floatSign b)
      (floatUnits (floatExponent a) (floatFraction a) * floatUnits (floatExponent b) (floatFraction b)) oneUnits := by
  rw [fmul, datum_of_isFinite ha, datum_of_isFinite hb]

/-- Turning the top bit over adds it, carries out being lost. -/
theorem fneg_eq_add (a : Word) : fneg a = a + 0x8000000000000000#64 := by
  have disjoint : ∀ b : Word, b.getLsbD 63 = false → b ^^^ 0x8000000000000000#64 = b + 0x8000000000000000#64 := by
    intro b hb
    have top : (0x8000000000000000#64) = BitVec.twoPow 64 63 := by decide
    have zero : b &&& 0x8000000000000000#64 = 0#64 := by rw [top, BitVec.and_twoPow, hb]; rfl
    rw [BitVec.add_eq_or_of_and_eq_zero _ _ zero]
    apply BitVec.eq_of_getLsbD_eq
    intro k hk
    have bit := congrArg (fun v : Word => v.getLsbD k) zero
    simp only [BitVec.getLsbD_and, BitVec.getLsbD_zero] at bit
    rw [BitVec.getLsbD_xor, BitVec.getLsbD_or]
    revert bit
    cases b.getLsbD k <;> cases (0x8000000000000000#64).getLsbD k <;> simp
  rw [fneg]
  cases h : a.getLsbD 63
  · exact disjoint a h
  · have back := disjoint (a ^^^ 0x8000000000000000#64) (by rw [BitVec.getLsbD_xor, h]; rfl)
    have twice : (a ^^^ 0x8000000000000000#64) ^^^ 0x8000000000000000#64 = a := by
      rw [BitVec.xor_assoc, BitVec.xor_self, BitVec.xor_zero]
    have sum : (0x8000000000000000#64) + 0x8000000000000000#64 = 0#64 := by decide
    have shifted := congrArg (fun v : Word => v + 0x8000000000000000#64) (twice.symm.trans back)
    simp only [BitVec.add_assoc, sum, BitVec.add_zero] at shifted
    exact shifted.symm

/-- Turning the sign over keeps the exponent and the fraction. -/
theorem fneg_fields (a : Word) :
    floatExponent (fneg a) = floatExponent a ∧ floatFraction (fneg a) = floatFraction a ∧
      floatSign (fneg a) = !floatSign a := by
  have h := a.isLt
  have e : (fneg a).toNat = (a.toNat + 9223372036854775808) % 18446744073709551616 := by
    rw [fneg_eq_add, BitVec.toNat_add]; rfl
  rw [floatExponent, floatFraction, floatSign, floatExponent, floatFraction, floatSign, e]
  refine ⟨by omega, by omega, ?_⟩
  by_cases hs : a.toNat / 2 ^ 63 % 2 = 1
  · rw [decide_eq_true hs, Bool.not_true]; apply decide_eq_false; omega
  · rw [decide_eq_false hs, Bool.not_false]; apply decide_eq_true; omega

theorem floatValue_fneg (a : Word) : floatValue (fneg a) = -floatValue a := by
  obtain ⟨h1, h2, h3⟩ := fneg_fields a
  rw [floatValue, floatValue, h1, h2, h3]
  cases floatSign a <;> simp [signed]

theorem isFinite_fneg (a : Word) : isFinite (fneg a) = isFinite a := by
  rw [isFinite, isFinite, (fneg_fields a).1]

/-! ### One rounding -/

/-- `nearestEven` is a nearest whole number to the quotient, and an even one of two equally near. -/
theorem nearestEven_nearest (num : Nat) {den : Nat} (h : 0 < den) (z : Int) :
    ((nearestEven num den : Int) * den - num).natAbs ≤ (z * den - num).natAbs ∧
      (z ≠ nearestEven num den →
        ((nearestEven num den : Int) * den - num).natAbs = (z * den - num).natAbs → nearestEven num den % 2 = 0) := by
  have hr := Nat.mod_lt num h
  have hn : (num : Int) = (num / den : Nat) * (den : Int) + (num % den : Nat) := by
    exact_mod_cast (Nat.div_add_mod' num den).symm
  obtain ⟨w, rfl⟩ : ∃ w : Int, z = (num / den : Nat) + w := ⟨z - (num / den : Nat), by ring⟩
  have hz : (((num / den : Nat) : Int) + w) * den - num = w * den - (num % den : Nat) := by rw [hn]; ring
  have hp : ∀ c : Int, c ≤ w → c * den ≤ w * den := fun c hc => mul_le_mul_of_nonneg_right hc (by omega)
  have hm : ∀ c : Int, w ≤ c → w * den ≤ c * den := fun c hc => mul_le_mul_of_nonneg_right hc (by omega)
  have position : w ≤ -1 ∨ w = 0 ∨ w = 1 ∨ 2 ≤ w := by omega
  rw [hz]
  unfold nearestEven
  split
  next up =>
    have hu : (((num / den + 1 : Nat) : Int)) * den - num = den - (num % den : Nat) := by rw [hn]; push_cast; ring
    rw [hu]
    rcases position with h1 | rfl | rfl | h1
    · have := hm _ h1; omega
    · omega
    · omega
    · have := hp _ h1; omega
  next down =>
    have hu : (((num / den : Nat) : Int)) * den - num = -((num % den : Nat) : Int) := by rw [hn]; ring
    rw [hu]
    rcases position with h1 | rfl | rfl | h1
    · have := hm _ h1; omega
    · omega
    · omega
    · have := hp _ h1; omega

/-- The magnitude in units of 2^-1074 that the 63 bits below the sign stand for. -/
def magUnits (mag : Nat) : Nat := floatUnits (mag / 2 ^ 52) (mag % 2 ^ 52)

theorem floatValue_floatPattern (neg : Bool) {mag : Nat} (h : mag < 2 ^ 63) :
    floatValue (floatPattern neg mag) = signed neg (magUnits mag) := by
  obtain ⟨h1, h2, h3⟩ := floatPattern_fields neg h
  rw [floatValue, h1, h2, h3]; rfl

/-- Every pattern's value is that of its sign and the 63 bits below it. -/
theorem floatValue_eq (v : Word) : floatValue v = signed (floatSign v) (magUnits (v.toNat % 2 ^ 63)) := by
  have h := v.isLt
  rw [floatValue, magUnits, floatExponent, floatFraction,
    show v.toNat % 2 ^ 63 / 2 ^ 52 = v.toNat / 2 ^ 52 % 2048 by omega,
    show v.toNat % 2 ^ 63 % 2 ^ 52 = v.toNat % 2 ^ 52 by omega]

/-- A pattern made from at most infinity's magnitude is finite exactly below it. -/
theorem isFinite_floatPattern (neg : Bool) {mag : Nat} (h : mag ≤ infinityMag) :
    isFinite (floatPattern neg mag) = true ↔ mag < infinityMag := by
  unfold infinityMag at *
  rw [isFinite, (floatPattern_fields neg (by omega)).2.1]
  simp only [bne_iff_ne, ne_eq]
  omega

theorem roundMag_le (num den : Nat) : roundMag num den ≤ infinityMag := Nat.min_le_right _ _

/-- A significand of 53 bits, or 2^53, at scale 2^drop: its units. -/
theorem magUnits_scaled {drop q : Nat} (h : q ≤ 2 ^ 53) (hd : drop = 0 ∨ 2 ^ 52 ≤ q) :
    magUnits (drop * 2 ^ 52 + q) = q * 2 ^ drop := by
  have cases3 : q < 2 ^ 52 ∨ (2 ^ 52 ≤ q ∧ q < 2 ^ 53) ∨ q = 2 ^ 53 := by omega
  unfold magUnits floatUnits
  rcases cases3 with hq | ⟨hq, hq'⟩ | rfl
  · obtain rfl : drop = 0 := by omega
    rw [if_pos (by omega)]; omega
  · rw [if_neg (by omega), show (drop * 2 ^ 52 + q) / 2 ^ 52 - 1 = drop by omega,
      show 2 ^ 52 + (drop * 2 ^ 52 + q) % 2 ^ 52 = q by omega]
  · rw [if_neg (by omega), show (drop * 2 ^ 52 + 2 ^ 53) / 2 ^ 52 - 1 = drop + 1 by omega,
      show (drop * 2 ^ 52 + 2 ^ 53) % 2 ^ 52 = 0 by omega, pow_succ]
    ring

/-- Magnitudes grow with their bits. -/
theorem magUnits_strictMono : StrictMono magUnits := by
  apply strictMono_nat_of_lt_succ
  intro n
  unfold magUnits floatUnits
  by_cases carry : n % 2 ^ 52 + 1 < 2 ^ 52
  · rw [show (n + 1) / 2 ^ 52 = n / 2 ^ 52 by omega, show (n + 1) % 2 ^ 52 = n % 2 ^ 52 + 1 by omega]
    split
    · omega
    · exact Nat.mul_lt_mul_of_pos_right (by omega) (by positivity)
  · rw [show (n + 1) / 2 ^ 52 = n / 2 ^ 52 + 1 by omega, show (n + 1) % 2 ^ 52 = 0 by omega,
      show n % 2 ^ 52 = 2 ^ 52 - 1 by omega, if_neg (Nat.succ_ne_zero _)]
    split
    next h0 => rw [h0]; norm_num
    next h0 =>
      obtain ⟨e, he⟩ : ∃ e, n / 2 ^ 52 = e + 1 := ⟨n / 2 ^ 52 - 1, by omega⟩
      rw [he, Nat.add_sub_cancel, Nat.add_sub_cancel, pow_succ]
      have : 0 < 2 ^ e := by positivity
      omega

/-- A magnitude of at least 2^(52 + k) units is a multiple of 2^k. -/
theorem dvd_magUnits {mag k : Nat} (h : 2 ^ (52 + k) ≤ magUnits mag) : 2 ^ k ∣ magUnits mag := by
  unfold magUnits floatUnits at *
  split at h
  · have : 2 ^ 52 ≤ 2 ^ (52 + k) := Nat.pow_le_pow_right (by norm_num) (by omega)
    omega
  next h0 =>
    rw [if_neg h0]
    apply Dvd.dvd.mul_left
    apply pow_dvd_pow
    by_contra hk
    have small : (2 ^ 52 + mag % 2 ^ 52) * 2 ^ (mag / 2 ^ 52 - 1) < 2 ^ 53 * 2 ^ (mag / 2 ^ 52 - 1) :=
      Nat.mul_lt_mul_of_pos_right (by omega) (by positivity)
    have large : 2 ^ 53 * 2 ^ (mag / 2 ^ 52 - 1) ≤ 2 ^ (52 + k) := by
      rw [← pow_add]; exact Nat.pow_le_pow_right (by norm_num) (by omega)
    omega

/-- The scale `roundMag` rounds at, and the significand it rounds to. -/
theorem roundMag_scaled (num : Nat) {den : Nat} (h : 0 < den) :
    ∃ drop q, roundMag num den = min (drop * 2 ^ 52 + q) infinityMag ∧ q = nearestEven num (den * 2 ^ drop) ∧
      q ≤ 2 ^ 53 ∧ (drop = 0 ∨ 2 ^ 52 ≤ q) ∧ (drop = 0 ∨ 2 ^ (52 + drop) * den ≤ num) ∧
      num < 2 ^ (53 + drop) * den := by
  refine ⟨bitLength (num / den) - 53, _, rfl, rfl, ?_⟩
  have near : ∀ d, num / d ≤ nearestEven num d ∧ nearestEven num d ≤ num / d + 1 := by
    intro d; unfold nearestEven; split <;> omega
  have step := near (den * 2 ^ (bitLength (num / den) - 53))
  rw [← Nat.div_div_eq_div_mul] at step
  have below : num / den < 2 ^ (53 + (bitLength (num / den) - 53)) :=
    lt_of_lt_of_le (lt_two_pow_bitLength _) (Nat.pow_le_pow_right (by norm_num) (by omega))
  have upper : num / den / 2 ^ (bitLength (num / den) - 53) < 2 ^ 53 := by
    rw [Nat.div_lt_iff_lt_mul (by positivity), ← pow_add]; exact below
  refine ⟨by omega, ?_, ?_, (Nat.div_lt_iff_lt_mul h).mp below⟩
  all_goals
    by_cases small : bitLength (num / den) ≤ 53
    · left; omega
    right
    have hpos : 0 < num / den := by
      rcases Nat.eq_zero_or_pos (num / den) with h0 | h0
      · rw [h0] at small; exact absurd (by simp [bitLength]) small
      · exact h0
    have lower : 2 ^ (52 + (bitLength (num / den) - 53)) ≤ num / den := by
      rw [show 52 + (bitLength (num / den) - 53) = bitLength (num / den) - 1 by omega]
      exact (bitLength_spec hpos).1
  · have : 2 ^ 52 ≤ num / den / 2 ^ (bitLength (num / den) - 53) := by
      rw [Nat.le_div_iff_mul_le (by positivity), ← pow_add]; exact lower
    omega
  · exact (Nat.le_div_iff_mul_le h).mp lower

/-- A rounded magnitude below infinity is a nearest one to `num / den` units among all magnitudes, and of two equally near
ones the one with an even fraction. -/
theorem roundMag_nearest (num : Nat) {den : Nat} (h : 0 < den) (finite : roundMag num den < infinityMag) (mag : Nat) :
    ((magUnits (roundMag num den) : Int) * den - num).natAbs ≤ ((magUnits mag : Int) * den - num).natAbs ∧
      (magUnits mag ≠ magUnits (roundMag num den) →
        ((magUnits (roundMag num den) : Int) * den - num).natAbs = ((magUnits mag : Int) * den - num).natAbs →
        roundMag num den % 2 = 0) := by
  obtain ⟨drop, q, hm, hq, hle, hd, hlow, -⟩ := roundMag_scaled num h
  rw [hm] at finite
  have hm' : roundMag num den = drop * 2 ^ 52 + q := by omega
  have hpos : 0 < den * 2 ^ drop := by positivity
  have scale : ((q * 2 ^ drop : Nat) : Int) * den - num = (q : Int) * (den * 2 ^ drop : Nat) - num := by
    push_cast; ring
  rw [hm', magUnits_scaled hle hd, scale]
  by_cases dvd : 2 ^ drop ∣ magUnits mag
  · obtain ⟨z, hz⟩ := dvd
    have other : ((magUnits mag : Nat) : Int) * den - num = (z : Int) * (den * 2 ^ drop : Nat) - num := by
      rw [hz]; push_cast; ring
    have near := nearestEven_nearest num hpos (z : Int)
    rw [← hq] at near
    rw [other]
    refine ⟨near.1, fun hne heq => ?_⟩
    have even := near.2 (by rintro he; apply hne; rw [hz, Nat.mul_comm]; congr 1; exact_mod_cast he) heq
    omega
  · have small : magUnits mag < 2 ^ (52 + drop) := by
      by_contra hge; exact dvd (dvd_magUnits (by omega))
    have hd0 : drop ≠ 0 := by rintro rfl; exact dvd (by simp)
    have low : 2 ^ (52 + drop) * den ≤ num := by omega
    have near := (nearestEven_nearest num hpos ((2 ^ 52 : Nat) : Int)).1
    rw [← hq] at near
    have bound : ((2 ^ 52 : Nat) : Int) * (den * 2 ^ drop : Nat) = (2 ^ (52 + drop) * den : Nat) := by
      push_cast; rw [pow_add]; ring
    have less : magUnits mag * den < 2 ^ (52 + drop) * den := Nat.mul_lt_mul_of_pos_right small h
    rw [bound] at near
    have less' : (magUnits mag : Int) * den < (2 ^ (52 + drop) * den : Nat) := by exact_mod_cast less
    have low' : ((2 ^ (52 + drop) * den : Nat) : Int) ≤ num := by exact_mod_cast low
    generalize ((2 ^ (52 + drop) * den : Nat) : Int) = m at *
    generalize (magUnits mag : Int) * den = y at *
    generalize (q : Int) * (den * 2 ^ drop : Nat) = x at *
    omega

/-- Rounding gives infinity exactly from half a unit in the last place beyond the largest finite number on. -/
theorem roundMag_infinite_iff (num : Nat) {den : Nat} (h : 0 < den) :
    roundMag num den = infinityMag ↔ (2 ^ 54 - 1) * 2 ^ 2044 * den ≤ num := by
  obtain ⟨drop, q, hm, hq, hle, hd, hlow, hupp⟩ := roundMag_scaled num h
  have infinite : roundMag num den = infinityMag ↔ 2047 * 2 ^ 52 ≤ drop * 2 ^ 52 + q := by
    rw [hm, infinityMag]; omega
  have shape : (2047 * 2 ^ 52 ≤ drop * 2 ^ 52 + q) ↔ 2046 ≤ drop ∨ (drop = 2045 ∧ q = 2 ^ 53) := by omega
  have unit : ∀ k, 2 ^ (k + 2044) * den = 2 ^ k * (2 ^ 2044 * den) := by intro k; rw [pow_add, Nat.mul_assoc]
  rw [infinite, shape, Nat.mul_assoc]
  have cases3 : drop ≤ 2044 ∨ drop = 2045 ∨ 2046 ≤ drop := by omega
  rcases cases3 with hc | rfl | hc
  · have far : 2 ^ (53 + drop) * den ≤ 2 ^ (53 + 2044) * den :=
      Nat.mul_le_mul_right _ (Nat.pow_le_pow_right (Nat.succ_pos 1) (Nat.add_le_add_left hc 53))
    rw [unit 53] at far
    generalize 2 ^ 2044 * den = u at *
    generalize 2 ^ (53 + drop) * den = v at *
    omega
  · have width : den * 2 ^ 2045 = 2 * (2 ^ 2044 * den) := by
      rw [show (2045 : Nat) = 1 + 2044 by norm_num, pow_add]; ring
    have hpos : 0 < 2 ^ 2044 * den := by positivity
    rw [width] at hq
    have upp : num < 2 ^ 54 * (2 ^ 2044 * den) := by
      rw [show 53 + 2045 = 54 + 2044 by norm_num, unit 54] at hupp; exact hupp
    generalize 2 ^ 2044 * den = u at *
    have hr := Nat.mod_lt num (show 0 < 2 * u by omega)
    have hn := Nat.div_add_mod' num (2 * u)
    have quotient : num / (2 * u) < 2 ^ 53 := by
      rw [Nat.div_lt_iff_lt_mul (by omega)]; omega
    unfold nearestEven at hq
    generalize num % (2 * u) = r at *
    generalize num / (2 * u) = k at *
    have last : k = 2 ^ 53 - 1 ∨ k ≤ 2 ^ 53 - 2 := by omega
    rcases last with rfl | last
    · split at hq <;> omega
    · have : k * (2 * u) ≤ (2 ^ 53 - 2) * (2 * u) := Nat.mul_le_mul_right _ last
      split at hq <;> omega
  · have far : 2 ^ (54 + 2044) * den ≤ 2 ^ (52 + drop) * den :=
      Nat.mul_le_mul_right _ (Nat.pow_le_pow_right (by norm_num) (by omega))
    rw [unit 54] at far
    have low : 2 ^ (52 + drop) * den ≤ num := by omega
    generalize 2 ^ 2044 * den = u at *
    generalize 2 ^ (52 + drop) * den = v at *
    omega

end Sys2Proof.Machine
end

