-- ==== Sys2Proof/Laws/PerInstr.lean ====
section
/-! SUPPORT. The family of laws stated per instruction. -/

namespace Sys2Proof.Laws.EncodesLegally

/-- The encoding of a well-formed instruction carries its opcode, its bit count and reserved bits 0, and its bit count is
0 unless it is XBITS: the encoded word passes every check of 30_encoding.md R77. -/
def Statement (i : Instr) : Prop :=
  i.wellFormed = true →
    opField (encode i).cmd = opcode i ∧ nbField (encode i).cmd = bitCount i ∧ rsvField (encode i).cmd = 0#17 ∧
      (bitCount i ≠ 0 → opcode i = 0x32#8)

theorem fields (i : Instr) (h : bitCount i ≠ 0 → opcode i = 0x32#8) : Statement i :=
  fun _ => ⟨opField_f1Word _ _, nbField_f1Word _ _, rsvField_f1Word _ _, h⟩

theorem rdseed : Statement .rdseed := fields _ fun h => absurd rfl h
theorem rdx : Statement .rdx := fields _ fun h => absurd rfl h
theorem seed (value : Word) : Statement (.seed value) := fields _ fun h => absurd rfl h
theorem mix : Statement .mix := fields _ fun h => absurd rfl h
theorem mixp (w : Word) : Statement (.mixp w) := fields _ fun h => absurd rfl h
theorem xsf : Statement .xsf := fields _ fun h => absurd rfl h
theorem xu64 : Statement .xu64 := fields _ fun h => absurd rfl h
theorem xi64 : Statement .xi64 := fields _ fun h => absurd rfl h
theorem xbits (b : Nat) : Statement (.xbits b) := fields _ fun _ => rfl
theorem xf : Statement .xf := fields _ fun h => absurd rfl h
theorem mapu (raw lo hi : Word) : Statement (.mapu raw lo hi) := fields _ fun h => absurd rfl h
theorem mapi (raw lo hi : Word) : Statement (.mapi raw lo hi) := fields _ fun h => absurd rfl h
theorem rngu (lo hi : Word) : Statement (.rngu lo hi) := fields _ fun h => absurd rfl h
theorem rngi (lo hi : Word) : Statement (.rngi lo hi) := fields _ fun h => absurd rfl h
theorem mapf (raw lo hi : Word) : Statement (.mapf raw lo hi) := fields _ fun h => absurd rfl h
theorem rngfs (lo hi : Word) : Statement (.rngfs lo hi) := fields _ fun h => absurd rfl h
theorem rngfx (lo hi : Word) : Statement (.rngfx lo hi) := fields _ fun h => absurd rfl h

end Sys2Proof.Laws.EncodesLegally
end

