-- ==== Sys2Proof/Machine/Assembler.lean ====
section
/-! DEFINITION. The assembler's line (30_encoding.md R79) and its pseudo-instructions (R80), from characters to an
instruction. The assembler stands outside the block: the block sees only the words it makes. -/

namespace Sys2Proof.Machine

/-- Why a line does not assemble. -/
inductive AsmError where
  | unknownMnemonic
  | operandCount
  | badOperand
  deriving DecidableEq, Repr

/-- An operand as written. -/
inductive Literal where
  | dec (neg : Bool) (n : Nat)
  | hex (n : Nat)
  /-- `digits * 10^(scale)`, the scale given as a difference `up - down`. -/
  | decimal (neg : Bool) (digits up down : Nat)
  | inf (neg : Bool)
  | nan
  | bits (n : Nat)
  deriving DecidableEq, Repr

/-! ### Characters -/

/-- A space or tab. -/
def isBlankChar (c : Char) : Bool := c == ' ' || c == '\t'

/-- Blanks taken off both ends. -/
def trimBlanks (cs : List Char) : List Char :=
  ((cs.dropWhile isBlankChar).reverse.dropWhile isBlankChar).reverse

/-- The parts between commas. -/
def commaParts : List Char → List (List Char)
  | [] => [[]]
  | c :: cs =>
    if c = ',' then [] :: commaParts cs
    else match commaParts cs with
      | [] => [[c]]
      | p :: ps => (c :: p) :: ps

/-- The value of a decimal digit. -/
def decDigit (c : Char) : Option Nat :=
  if 48 ≤ c.toNat ∧ c.toNat ≤ 57 then some (c.toNat - 48) else none

/-- The value of a hexadecimal digit, in either case. -/
def hexDigit (c : Char) : Option Nat :=
  if 48 ≤ c.toNat ∧ c.toNat ≤ 57 then some (c.toNat - 48)
  else if 65 ≤ c.toNat ∧ c.toNat ≤ 70 then some (c.toNat - 55)
  else if 97 ≤ c.toNat ∧ c.toNat ≤ 102 then some (c.toNat - 87)
  else none

/-- Digits added to the value so far. -/
def digitsFrom (digit : Char → Option Nat) (base : Nat) : Nat → List Char → Option Nat
  | acc, [] => some acc
  | acc, c :: cs => match digit c with
    | some d => digitsFrom digit base (acc * base + d) cs
    | none => none

/-- A non-empty string of digits. -/
def number (digit : Char → Option Nat) (base : Nat) (cs : List Char) : Option Nat :=
  if cs.isEmpty then none else digitsFrom digit base 0 cs

/-- A hexadecimal number with its `0x`. -/
def hexNumber : List Char → Option Nat
  | '0' :: 'x' :: cs => number hexDigit 16 cs
  | _ => none

/-- The exponent of a decimal float, with an optional sign, as powers up and down. -/
def exponentPart : List Char → Option (Nat × Nat)
  | [] => some (0, 0)
  | 'e' :: '-' :: cs => (number decDigit 10 cs).map fun n => (0, n)
  | 'e' :: '+' :: cs => (number decDigit 10 cs).map fun n => (n, 0)
  | 'e' :: cs => (number decDigit 10 cs).map fun n => (n, 0)
  | _ => none

/-- A decimal float without its sign: digits, an optional point and fraction, an optional exponent. -/
def decimalFloat (neg : Bool) (cs : List Char) : Option Literal :=
  let isDigit := fun c => (decDigit c).isSome
  let whole := cs.takeWhile isDigit
  let rest := cs.dropWhile isDigit
  let frac := match rest with
    | '.' :: r => r.takeWhile isDigit
    | _ => []
  let rest' := match rest with
    | '.' :: r => r.dropWhile isDigit
    | r => r
  if whole.isEmpty then none
  else match number decDigit 10 (whole ++ frac), exponentPart rest' with
    | some n, some (up, down) => some (.decimal neg n up (down + frac.length))
    | _, _ => none

/-- A literal without its minus sign. -/
def unsignedLiteral (neg : Bool) (cs : List Char) : Option Literal :=
  if cs = "inf".toList then some (.inf neg)
  else match number decDigit 10 cs with
    | some n => some (.dec neg n)
    | none => decimalFloat neg cs

/-- A literal (R79). -/
def literal (cs : List Char) : Option Literal :=
  match cs with
  | '-' :: r => unsignedLiteral true r
  | '0' :: 'x' :: _ => (hexNumber cs).map .hex
  | 'b' :: 'i' :: 't' :: 's' :: '(' :: r =>
    if r.getLast? = some ')' then (hexNumber r.dropLast).map .bits else none
  | _ => if cs = "nan".toList then some .nan else unsignedLiteral false cs

/-! ### Operands (R79) -/

/-- A u64 operand: an unsigned number below 2^64. -/
def asU64 : Literal → Option Word
  | .dec false n => if n < 2 ^ 64 then some (BitVec.ofNat 64 n) else none
  | .hex n => if n < 2 ^ 64 then some (BitVec.ofNat 64 n) else none
  | .dec true _ => none
  | .decimal _ _ _ _ => none
  | .inf _ => none
  | .nan => none
  | .bits _ => none

/-- An s64 operand: a decimal in -2^63..2^63-1, or a hexadecimal pattern (log 13). -/
def asS64 : Literal → Option Word
  | .dec true n => if n ≤ 2 ^ 63 then some (BitVec.ofInt 64 (-(n : Int))) else none
  | .dec false n => if n < 2 ^ 63 then some (BitVec.ofNat 64 n) else none
  | .hex n => if n < 2 ^ 64 then some (BitVec.ofNat 64 n) else none
  | .decimal _ _ _ _ => none
  | .inf _ => none
  | .nan => none
  | .bits _ => none

/-- The binary64 value nearest to `digits * 10^up / 10^down`, ties to even. A literal that rounds beyond the largest finite
number gives the infinity of its sign and is no assembly error: DESIGN CHOICE, log 13. -/
def nearestFloat (neg : Bool) (digits up down : Nat) : Word :=
  roundFloat neg (digits * 10 ^ up * oneUnits) (10 ^ down)

/-- A float operand: a decimal float or whole number (log 13), an infinity, a NaN, or a bit pattern. -/
def asF64 : Literal → Option Word
  | .decimal neg n up down => some (nearestFloat neg n up down)
  | .dec neg n => some (nearestFloat neg n 0 0)
  | .inf neg => some (floatPattern neg infinityMag)
  | .nan => some canonicalNaN
  | .bits n => if n < 2 ^ 64 then some (BitVec.ofNat 64 n) else none
  | .hex _ => none

/-- The bit count: a decimal in 0..127. -/
def asBitCount : Literal → Option Nat
  | .dec false n => if n ≤ 127 then some n else none
  | .dec true _ => none
  | .hex _ => none
  | .decimal _ _ _ _ => none
  | .inf _ => none
  | .nan => none
  | .bits _ => none

/-! ### Lines -/

/-- A mnemonic without operands. -/
def noOperand (i : Instr) : List (Option Literal) → Except AsmError Instr
  | [] => .ok i
  | _ => .error .operandCount

/-- One converted operand. -/
def operand {α : Type} (conv : Literal → Option α) (l : Option Literal) : Except AsmError α :=
  match l.bind conv with
  | some a => .ok a
  | none => .error .badOperand

/-- A mnemonic with one operand. -/
def oneOperand {α : Type} (conv : Literal → Option α) (f : α → Instr) :
    List (Option Literal) → Except AsmError Instr
  | [a] => (operand conv a).map f
  | _ => .error .operandCount

/-- A mnemonic with the operands lo, hi. -/
def twoOperands (conv : Literal → Option Word) (f : Word → Word → Instr) :
    List (Option Literal) → Except AsmError Instr
  | [a, b] => (operand conv a).bind fun lo => (operand conv b).map fun hi => f lo hi
  | _ => .error .operandCount

/-- A mnemonic with the operands raw, lo, hi; raw is read as `convRaw` says. -/
def threeOperands (convRaw conv : Literal → Option Word) (f : Word → Word → Word → Instr) :
    List (Option Literal) → Except AsmError Instr
  | [r, a, b] => (operand convRaw r).bind fun raw => (operand conv a).bind fun lo =>
      (operand conv b).map fun hi => f raw lo hi
  | _ => .error .operandCount

/-- The instruction of a mnemonic in capitals and its operands: the commands of R79, then the pseudo-instructions of
R80. -/
def assembleParts (m : List Char) (ops : List (Option Literal)) : Except AsmError Instr :=
  if m = "RDSEED".toList then noOperand .rdseed ops
  else if m = "RDX".toList then noOperand .rdx ops
  else if m = "SEED".toList then oneOperand asU64 .seed ops
  else if m = "MIX".toList then noOperand .mix ops
  else if m = "MIXP".toList then oneOperand asU64 .mixp ops
  else if m = "XSF".toList then noOperand .xsf ops
  else if m = "XU64".toList then noOperand .xu64 ops
  else if m = "XI64".toList then noOperand .xi64 ops
  else if m = "XBITS".toList then oneOperand asBitCount .xbits ops
  else if m = "XF".toList then noOperand .xf ops
  else if m = "MAPU".toList then threeOperands asU64 asU64 .mapu ops
  else if m = "MAPI".toList then threeOperands asU64 asS64 .mapi ops
  else if m = "MAPF".toList then threeOperands asF64 asF64 .mapf ops
  else if m = "RNGU".toList then twoOperands asU64 .rngu ops
  else if m = "RNGI".toList then twoOperands asS64 .rngi ops
  else if m = "RNGFS".toList then twoOperands asF64 .rngfs ops
  else if m = "RNGFX".toList then twoOperands asF64 .rngfx ops
  else if m = "XU8".toList then noOperand Pseudo.xu8.expand ops
  else if m = "XU16".toList then noOperand Pseudo.xu16.expand ops
  else if m = "XU32".toList then noOperand Pseudo.xu32.expand ops
  else if m = "RESEED".toList then noOperand Pseudo.reseed.expand ops
  else if m = "NEXT_SCALAR_FLOAT".toList then noOperand Pseudo.nextScalarFloat.expand ops
  else if m = "NEXT_U64".toList then noOperand Pseudo.nextU64.expand ops
  else if m = "NEXT_I64".toList then noOperand Pseudo.nextI64.expand ops
  else if m = "NEXT_BITS".toList then oneOperand asBitCount (fun b => (Pseudo.nextBits b).expand) ops
  else if m = "INITIALIZE_SEED".toList then oneOperand asU64 (fun v => (Pseudo.initializeSeed v).expand) ops
  else .error .unknownMnemonic

/-- One line: text after `;` is a comment, the mnemonic is case-insensitive, the operands are separated by commas. An
empty line assembles to nothing. -/
def assembleLine (line : List Char) : Except AsmError (Option Instr) :=
  let body := trimBlanks (line.takeWhile (· != ';'))
  let mnemonic := body.takeWhile fun c => !isBlankChar c
  let tail := trimBlanks (body.drop mnemonic.length)
  if body.isEmpty then .ok none
  else
    let ops := if tail.isEmpty then [] else (commaParts tail).map fun p => literal (trimBlanks p)
    (assembleParts (mnemonic.map Char.toUpper) ops).map some

/-- The command words of one line. -/
def assembleCommand (line : String) : Except AsmError (Option Command) :=
  (assembleLine line.toList).map fun i => i.map encode

end Sys2Proof.Machine
end

