-- ==== Sys2Proof/Tests/Slice0.lean ====
section
/-! SUPPORT. The model's own tests. Every expected value is transcribed from 95_test_vectors.md (its row named in the
comment) or written out from the encoding tables of 30_encoding.md; the witnesses show states and operands that meet the
hypotheses of the obligation they are named after. -/

namespace Sys2Proof.Tests

open Sys2Proof.Machine Sys2Proof.Claims

/-! ### Small states and what is read from an outcome -/

/-- An idle block with the given seed and words; the response registers hold something no command leaves. -/
def idle (seed : Word) (x : Quad) : State :=
  { seed := seed, x := x, rspStatus := 7, rspRes := ⟨9, 9, 9, 9⟩, outstanding := none, pins := PortIn.quiet, script := [],
    drawStream := 0, drawIndex := 0 }

/-- X after `SEED 1234567` (V-SEED-1). -/
def words1 : Quad := ⟨0x599ED017FB08FC85#64, 0x2C73F08458540FA5#64, 0x883EBCE5A3F27C77#64, 0x3FBEF740E9177B3F#64⟩

/-- X after V-XU-1. -/
def words2 : Quad := ⟨0x4A53D7D34A4B881F#64, 0xFDD39C7600AE8F57#64, 0x30A8DC5A47B080F2#64, 0x6E934279A0F89628#64⟩

/-- The state `SEED 1234567` leaves (V-SEED-1). -/
def seeded : State := idle 0x78DDE6E5FD3CC6DB#64 words1

/-- The greatest word, `M` of 95_test_vectors.md. -/
def top : Word := 0xFFFFFFFFFFFFFFFF#64

/-- Status, results, SEED and X of a next state. -/
def answer (o : Host.Outcome State Fault Refusal) : Option (Nat × Quad × Word × Quad) :=
  match o with
  | .next t => some (t.rspStatus.toNat, t.rspRes, t.seed, t.x)
  | .fault _ => none
  | .refused _ => none

/-- The block in state `s` with a command word on its port. -/
def withCommand (s : State) (c : Command) : State :=
  { s with pins := { PortIn.quiet with cmdValid := true, command := c } }

/-! ### Well-formedness: the one check there is -/

theorem test_wellFormed_refuses_128 : Instr.wellFormed (.xbits 128) = false := by decide

theorem test_wellFormed_admits_127 : Instr.wellFormed (.xbits 127) = true := by decide

/-! ### Decoding: every row of R78, its word written out bit by bit; OPA, OPB, OPC are 1, 2, 3 -/

theorem test_decode_state_access :
    decode ⟨0b00000000000000000000000000000001#32, 1, 2, 3⟩ = .ok .rdseed ∧
    decode ⟨0b00000000000000000000000000000010#32, 1, 2, 3⟩ = .ok .rdx := by decide

theorem test_decode_mixer :
    decode ⟨0b00000000000000000000000000010000#32, 1, 2, 3⟩ = .ok (.seed 1) ∧
    decode ⟨0b00000000000000000000000000010001#32, 1, 2, 3⟩ = .ok .mix ∧
    decode ⟨0b00000000000000000000000000010010#32, 1, 2, 3⟩ = .ok (.mixp 1) := by decide

theorem test_decode_scalar :
    decode ⟨0b00000000000000000000000000100000#32, 1, 2, 3⟩ = .ok .xsf := by decide

theorem test_decode_multiword :
    decode ⟨0b00000000000000000000000000110000#32, 1, 2, 3⟩ = .ok .xu64 ∧
    decode ⟨0b00000000000000000000000000110001#32, 1, 2, 3⟩ = .ok .xi64 ∧
    decode ⟨0b00000000000000000000100000110010#32, 1, 2, 3⟩ = .ok (.xbits 8) ∧
    decode ⟨0b00000000000000000111111100110010#32, 1, 2, 3⟩ = .ok (.xbits 127) ∧
    decode ⟨0b00000000000000000000000000110010#32, 1, 2, 3⟩ = .ok (.xbits 0) ∧
    decode ⟨0b00000000000000000000000000110011#32, 1, 2, 3⟩ = .ok .xf := by decide

theorem test_decode_integer_range :
    decode ⟨0b00000000000000000000000001000000#32, 1, 2, 3⟩ = .ok (.mapu 3 1 2) ∧
    decode ⟨0b00000000000000000000000001000001#32, 1, 2, 3⟩ = .ok (.mapi 3 1 2) ∧
    decode ⟨0b00000000000000000000000001001000#32, 1, 2, 3⟩ = .ok (.rngu 1 2) ∧
    decode ⟨0b00000000000000000000000001001001#32, 1, 2, 3⟩ = .ok (.rngi 1 2) := by decide

theorem test_decode_float_range :
    decode ⟨0b00000000000000000000000001010000#32, 1, 2, 3⟩ = .ok (.mapf 3 1 2) ∧
    decode ⟨0b00000000000000000000000001011000#32, 1, 2, 3⟩ = .ok (.rngfs 1 2) ∧
    decode ⟨0b00000000000000000000000001011001#32, 1, 2, 3⟩ = .ok (.rngfx 1 2) := by decide

/-- V-ILL-1 to V-ILL-7: each of the three checks of R77, and their order. -/
theorem test_decode_illegal :
    decode ⟨0x00000000#32, 0, 0, 0⟩ = .error .unassignedOpcode ∧
    decode ⟨0xFFFFFFFF#32, 0, 0, 0⟩ = .error .unassignedOpcode ∧
    decode ⟨0x00000003#32, 0, 0, 0⟩ = .error .unassignedOpcode ∧
    decode ⟨0x00008010#32, 0, 0, 0⟩ = .error .reservedBits ∧
    decode ⟨0x00000130#32, 0, 0, 0⟩ = .error .bitCountNotZero ∧
    decode ⟨0x00008032#32, 0, 0, 0⟩ = .error .reservedBits ∧
    decode ⟨0x80000059#32, 0, 0, 0⟩ = .error .reservedBits := by decide

/-- A byte string shorter than a command, and a command followed by one more byte. -/
theorem test_decodeBytes :
    decodeBytes [0x01#8, 0, 0, 0] = .error .shortCommand ∧
    decodeBytes (bytesOfCommand ⟨0x00000010#32, 0x0102#64, 0, 0⟩ ++ [7#8]) = .ok (.seed 0x0102#64, [7#8]) := by decide

/-- R58: byte k of a word is its bits 8k+7..8k. -/
theorem test_littleEndian : littleEndian 4 0x12345678 = [0x78#8, 0x56#8, 0x34#8, 0x12#8] := by decide

/-- The table's words as the host numbers them. -/
theorem test_decodeTableWord :
    decodeTableWord 32 0x00000832 = some (.xbits 8) ∧ decodeTableWord 32 0x00000048 = some (.rngu 0 0) ∧
    decodeTableWord 32 0x00000000 = none := by decide

/-! ### State access (V-RD-1, V-RD-2) -/

theorem test_rdseed :
    answer (exec .rdseed seeded) = some (0, ⟨0x78DDE6E5FD3CC6DB#64, 0, 0, 0⟩, 0x78DDE6E5FD3CC6DB#64, words1) := by decide

theorem test_rdx : answer (exec .rdx seeded) = some (0, words1, 0x78DDE6E5FD3CC6DB#64, words1) := by decide

/-! ### Seed mixer (V-SEED-1, V-SEED-5, V-MIX-4, V-MIX-7, V-MIXP-5, V-MIXP-6) -/

theorem test_seed_operand :
    answer (exec (.seed 1234567#64) (idle 5 ⟨1, 2, 3, 4⟩)) =
      some (0, ⟨0, 0, 0, 0⟩, 0x78DDE6E5FD3CC6DB#64, words1) := by decide

theorem test_seed_entropy :
    answer (exec (.seed 0) { seeded with pins := { PortIn.quiet with entropy := 0x8722191A02D60FAC#64 } }) =
      some (0, ⟨0, 0, 0, 0⟩, 0,
        ⟨0x6061EFF69A95C91C#64, 0x61BC8EA8124999D4#64, 0x336503C6B835BEC0#64, 0⟩) := by decide

theorem test_mix :
    answer (exec .mix seeded) =
      some (0, ⟨0xE3B8346708CB5ECD#64, 0, 0, 0⟩, 0x1715609F7C8742F0#64, words1) := by decide

theorem test_mix_to_zero :
    answer (exec .mix (idle 0x61C8864680B583EB#64 words1)) = some (0, ⟨0, 0, 0, 0⟩, 0, words1) := by decide

theorem test_mixp :
    answer (exec (.mixp 0x0123456789ABCDEF#64) (idle 5 words1)) =
      some (0, ⟨0x157A3807A48FAA9D#64, 0x9F5ABF2108F64A04#64, 0, 0⟩, 5, words1) := by decide

theorem test_mixp_wraps :
    answer (exec (.mixp top) (idle 5 words1)) =
      some (0, ⟨0xE4D971771B652C20#64, 0x9E3779B97F4A7C14#64, 0, 0⟩, 5, words1) := by decide

/-! ### Scalar generator (V-XSF-1, V-XSF-6) -/

theorem test_xsf :
    answer (exec .xsf seeded) =
      some (0, ⟨0x3FDC9A266A0C801A#64, 0, 0, 0⟩, 0x726899A832006996#64, words1) := by decide +kernel

theorem test_xsf_drops_bits :
    answer (exec .xsf (idle top words1)) =
      some (0, ⟨0x3DCFC00C00000000#64, 0, 0, 0⟩, 0x000000003F801FC0#64, words1) := by decide +kernel

/-! ### Multi-word generator (V-XU-1, V-XU-9, V-XBITS-63, V-XBITS-65, V-XF-1, V-XF-6) -/

theorem test_xu64 :
    answer (exec .xu64 seeded) =
      some (0, ⟨0x30A3A1C363600467#64, 0, 0, 0⟩, 0x78DDE6E5FD3CC6DB#64, words2) := by decide

theorem test_xu64_small :
    answer (exec .xu64 (idle 5 ⟨1, 2, 3, top⟩)) =
      some (0, ⟨0x2D00#64, 0, 0, 0⟩, 5, ⟨0xFFFFFFFFFFFFFFFC#64, 0, 0x40002#64, 0xFFFFBFFFFFFFFFFF#64⟩) := by decide

theorem test_xi64 :
    answer (exec .xi64 (idle 5 ⟨top, top, top, top⟩)) =
      some (0, ⟨BitVec.ofInt 64 (-4617), 0, 0, 0⟩, 5, ⟨top, top, 0xFFFFFFFFFFFE0000#64, 0⟩) := by decide

theorem test_xbits :
    answer (exec (.xbits 63) seeded) =
      some (0, ⟨0x1851D0E1B1B00233#64, 0, 0, 0⟩, 0x78DDE6E5FD3CC6DB#64, words2) := by decide

theorem test_xbits_outside :
    answer (exec (.xbits 65) seeded) = some (4, ⟨0, 0, 0, 0⟩, 0x78DDE6E5FD3CC6DB#64, words1) := by decide

theorem test_xf :
    answer (exec .xf seeded) =
      some (0, ⟨0x3FE32BB8EB1C840E#64, 0, 0, 0⟩, 0x78DDE6E5FD3CC6DB#64, words2) := by decide +kernel

theorem test_xf_largest :
    answer (exec .xf (idle 5 ⟨top, top, top, top⟩)) =
      some (0, ⟨0x3FEFFFFFFFFFFFFF#64, 0, 0, 0⟩, 5, ⟨top, top, 0xFFFFFFFFFFFE0000#64, 0⟩) := by decide +kernel

/-! ### Integer range mapper (V-MAPU-9, V-MAPU-11, V-MAPI-8, V-MAPI-10, V-RNGU-1, V-RNGU-5, V-RNGI-1, V-RNGI-2) -/

theorem test_mapu :
    answer (exec (.mapu top 1 top) seeded) = some (0, ⟨1, 0, 0, 0⟩, 0x78DDE6E5FD3CC6DB#64, words1) := by decide

theorem test_mapu_full_width :
    answer (exec (.mapu 5 0 top) seeded) = some (1, ⟨0, 0, 0, 0⟩, 0x78DDE6E5FD3CC6DB#64, words1) := by decide

theorem test_mapi :
    answer (exec (.mapi (top - 1) 0x8000000000000000#64 0x7FFFFFFFFFFFFFFE#64) seeded) =
      some (0, ⟨0x7FFFFFFFFFFFFFFE#64, 0, 0, 0⟩, 0x78DDE6E5FD3CC6DB#64, words1) := by decide

theorem test_mapi_inverted :
    answer (exec (.mapi 0 top 0xFFFFFFFFFFFFFFFB#64) seeded) =
      some (1, ⟨0, 0, 0, 0⟩, 0x78DDE6E5FD3CC6DB#64, words1) := by decide

theorem test_rngu :
    answer (exec (.rngu 1 6) seeded) = some (0, ⟨6, 0, 0, 0⟩, 0x78DDE6E5FD3CC6DB#64, words2) := by decide

theorem test_rngu_inverted :
    answer (exec (.rngu 5 4) seeded) = some (1, ⟨0, 0, 0, 0⟩, 0x78DDE6E5FD3CC6DB#64, words1) := by decide

theorem test_rngi :
    answer (exec (.rngi 0xFFFFFFFFFFFFFFFD#64 3) seeded) =
      some (0, ⟨2, 0, 0, 0⟩, 0x78DDE6E5FD3CC6DB#64, words2) := by decide

theorem test_rngi_inverted :
    answer (exec (.rngi top 0xFFFFFFFFFFFFFFFB#64) seeded) =
      some (1, ⟨0, 0, 0, 0⟩, 0x78DDE6E5FD3CC6DB#64, words1) := by decide

/-! ### Float range mapper (V-MAPF-4, V-MAPF-25, V-RNGF-1, V-RNGF-4, V-RNGF-2, V-RNGF-3) -/

theorem test_mapf_reaches_hi :
    answer (exec (.mapf 0x3FEFFFFFFFFFFFFF#64 0x3FF0000000000000#64 0x4000000000000000#64) seeded) =
      some (0, ⟨0x4000000000000000#64, 0, 0, 0⟩, 0x78DDE6E5FD3CC6DB#64, words1) := by decide +kernel

theorem test_mapf_range_before_other :
    answer (exec (.mapf 0x7FF8000000000000#64 0x3FF0000000000000#64 0x3FF0000000000000#64) seeded) =
      some (1, ⟨0, 0, 0, 0⟩, 0x78DDE6E5FD3CC6DB#64, words1) := by decide +kernel

theorem test_rngfs :
    answer (exec (.rngfs 0x3FF0000000000000#64 0x4018000000000000#64) seeded) =
      some (0, ⟨0x4009E0580247D010#64, 0, 0, 0⟩, 0x726899A832006996#64, words1) := by decide +kernel

theorem test_rngfs_inverted :
    answer (exec (.rngfs 0x4000000000000000#64 0x3FF0000000000000#64) seeded) =
      some (1, ⟨0, 0, 0, 0⟩, 0x78DDE6E5FD3CC6DB#64, words1) := by decide +kernel

theorem test_rngfx :
    answer (exec (.rngfx 0x4024000000000000#64 0x4034000000000000#64) seeded) =
      some (0, ⟨0x402FFB5392F1D289#64, 0, 0, 0⟩, 0x78DDE6E5FD3CC6DB#64, words2) := by decide +kernel

theorem test_rngfx_equal :
    answer (exec (.rngfx 0x3FF0000000000000#64 0x3FF0000000000000#64) seeded) =
      some (1, ⟨0, 0, 0, 0⟩, 0x78DDE6E5FD3CC6DB#64, words1) := by decide +kernel

/-! ### Float operations: V-MAPF-6, V-MAPF-10, V-MAPF-11, V-MAPF-12, V-MAPF-13, V-MAPF-14 -/

theorem test_map_f_corners :
    mapF 0x8000000000000000#64 0#64 0x3FF0000000000000#64 = .ok 0#64 ∧
    mapF 0x3FE0000000000000#64 0#64 1#64 = .ok 0#64 ∧
    mapF 0x3FE8000000000000#64 1#64 2#64 = .ok 2#64 ∧
    mapF 0x3FE0000000000000#64 0xFFEFFFFFFFFFFFFF#64 0x7FEFFFFFFFFFFFFF#64 = .ok 0x7FF0000000000000#64 ∧
    mapF 0#64 0xFFEFFFFFFFFFFFFF#64 0x7FEFFFFFFFFFFFFF#64 = .ok 0x7FF8000000000000#64 ∧
    mapF 0x3FE0000000000000#64 0xFFF0000000000000#64 0x7FF0000000000000#64 = .ok 0x7FF8000000000000#64 := by
  decide +kernel

/-- The checks of 00_scope.md R10. -/
theorem test_u53ToF64 :
    u53ToF64 (2 ^ 52) = 0x3FE0000000000000#64 ∧ u53ToF64 1 = 0x3CA0000000000000#64 ∧
    u53ToF64 (2 ^ 53 - 1) = 0x3FEFFFFFFFFFFFFF#64 ∧ u53ToF64 0 = 0#64 := by decide +kernel

/-! ### The assembler (30_encoding.md R79; 95_test_vectors.md P1, P3, P4) -/

theorem test_assemble_rngu :
    assembleCommand "RNGU 1, 6" = .ok (some ⟨0x00000048#32, 1, 6, 0⟩) := by decide +kernel

theorem test_assemble_rngi :
    assembleCommand "rngi -3, 3 ; a signed range" =
      .ok (some ⟨0x00000049#32, 0xFFFFFFFFFFFFFFFD#64, 3, 0⟩) := by decide +kernel

theorem test_assemble_mapf :
    assembleCommand "MAPF 0.25, -2.5, 7.5" =
      .ok (some ⟨0x00000050#32, 0xC004000000000000#64, 0x401E000000000000#64, 0x3FD0000000000000#64⟩) := by
  decide +kernel

theorem test_assemble_refuses :
    assembleCommand "XBITS 128" = .error .badOperand ∧ assembleCommand "SEED -1" = .error .badOperand ∧
    assembleCommand "MIX 3" = .error .operandCount ∧ assembleCommand "ADD 1" = .error .unknownMnemonic := by
  decide +kernel

/-! ### The interface -/

/-- An idle block is ready, and a block whose response waits is not. -/
theorem test_ports :
    cmdReady seeded = true ∧ rspValid seeded = false ∧
    cmdReady { seeded with outstanding := some 0 } = false ∧ rspValid { seeded with outstanding := some 0 } = true ∧
    rspStatusPort { seeded with outstanding := some 1 } = 0#3 := by decide

/-- V-ILL-4 on the port: ILLEGAL, zero results, no state changed. -/
theorem test_illegal_on_port :
    answer (step (withCommand seeded ⟨0x00008010#32, 1, 0, 0⟩)) =
      some (5, ⟨0, 0, 0, 0⟩, 0x78DDE6E5FD3CC6DB#64, words1) := by decide

/-- P1 step 3, through the port. -/
theorem test_rngu_on_port :
    answer (step (withCommand seeded ⟨0x00000048#32, 1, 6, 0⟩)) =
      some (0, ⟨6, 0, 0, 0⟩, 0x78DDE6E5FD3CC6DB#64, words2) := by decide

/-- The first step after reset with a command placed runs it. -/
theorem test_placed_after_reset :
    (answer (step (State.reset.withFetchWord 32 0x00000132))).map (fun r => r.1) = some 0 := by decide

/-! ### Witnesses: states and operands that meet the hypotheses of the obligations -/

/-- BitsCommand: both ends of each range of b. -/
theorem witness_BitsCommand :
    (1 ≤ 1 ∧ 1 ≤ 64) ∧ (1 ≤ 64 ∧ 64 ≤ 64) ∧ (0 = 0 ∨ 64 < 0) ∧ (65 = 0 ∨ 64 < 65) ∧ (127 = 0 ∨ 64 < 127) := by decide

/-- UnsignedMapCommand and UnsignedRangeCommand: lo = hi, the widest span accepted at either end, the full range and an
inverted range; no two bounds meet both clauses. -/
theorem witness_UnsignedMapCommand :
    ((7#64).toNat ≤ (7#64).toNat ∧ (7#64).toNat - (7#64).toNat < 2 ^ 64 - 1) ∧
    ((0#64).toNat ≤ (top - 1).toNat ∧ (top - 1).toNat - (0#64).toNat < 2 ^ 64 - 1) ∧
    ((1#64).toNat ≤ top.toNat ∧ top.toNat - (1#64).toNat < 2 ^ 64 - 1) ∧
    ((0#64).toNat = 0 ∧ top.toNat = 2 ^ 64 - 1) ∧ (4#64).toNat < (5#64).toNat := by decide

/-- SignedMapCommand and SignedRangeCommand: the same for signed bounds. -/
theorem witness_SignedMapCommand :
    (top.toInt ≤ top.toInt ∧ top.toInt - top.toInt < 2 ^ 64 - 1) ∧
    ((0x8000000000000000#64).toInt ≤ (0x7FFFFFFFFFFFFFFE#64).toInt ∧
      (0x7FFFFFFFFFFFFFFE#64).toInt - (0x8000000000000000#64).toInt < 2 ^ 64 - 1) ∧
    ((0x8000000000000000#64).toInt = -(2 ^ 63) ∧ (0x7FFFFFFFFFFFFFFF#64).toInt = 2 ^ 63 - 1) ∧
    (0xFFFFFFFFFFFFFFFB#64).toInt < top.toInt := by decide

/-- V-MAPU-8, V-MAPI-7 and their full clauses: the widest accepted ranges answer OK. -/
theorem witness_widest_ranges :
    answer (exec (.mapu (top - 1) 0 (top - 1)) seeded) =
      some (0, ⟨0xFFFFFFFFFFFFFFFE#64, 0, 0, 0⟩, 0x78DDE6E5FD3CC6DB#64, words1) ∧
    answer (exec (.mapi top 0x8000000000000000#64 0x7FFFFFFFFFFFFFFE#64) seeded) =
      some (0, ⟨0x8000000000000000#64, 0, 0, 0⟩, 0x78DDE6E5FD3CC6DB#64, words1) := by decide

/-- IntegerRangeContainment: an OK next state of each of the four commands. -/
theorem witness_IntegerRangeContainment :
    (∃ t, exec (.mapu 5 1 6) seeded = .next t ∧ t.rspStatus = 0#3) ∧
    (∃ t, exec (.rngu 1 6) seeded = .next t ∧ t.rspStatus = 0#3) ∧
    (∃ t, exec (.mapi 5 top 3) seeded = .next t ∧ t.rspStatus = 0#3) ∧
    (∃ t, exec (.rngi top 3) seeded = .next t ∧ t.rspStatus = 0#3) := by
  refine ⟨⟨_, rfl, ?_⟩, ⟨_, rfl, ?_⟩, ⟨_, rfl, ?_⟩, ⟨_, rfl, ?_⟩⟩ <;> rfl

/-- FloatMapCommand, first clause at both ends of [0,1), -0.0 among them, and a NaN result. -/
theorem witness_FloatMapCommand_ok :
    fgt 0x4000000000000000#64 0x3FF0000000000000#64 = true ∧
    (fge 0x8000000000000000#64 0#64 = true ∧ flt 0x8000000000000000#64 0x3FF0000000000000#64 = true) ∧
    (fge 0x3FEFFFFFFFFFFFFF#64 0#64 = true ∧ flt 0x3FEFFFFFFFFFFFFF#64 0x3FF0000000000000#64 = true) ∧
    fgt 0x7FF0000000000000#64 0xFFF0000000000000#64 = true ∧
    isNaN (fadd (fmul (fsub 0x7FF0000000000000#64 0xFFF0000000000000#64) 0#64) 0xFFF0000000000000#64) = true := by
  decide +kernel

/-- FloatMapCommand, the other clauses: raw 1.0, raw -2^-1074, raw NaN; equal bounds, +-0 bounds, a NaN bound. -/
theorem witness_FloatMapCommand_errors :
    (fge 0x3FF0000000000000#64 0#64 = true ∧ flt 0x3FF0000000000000#64 0x3FF0000000000000#64 = false) ∧
    fge 0x8000000000000001#64 0#64 = false ∧ fge 0x7FF8000000000000#64 0#64 = false ∧
    fgt 0x3FF0000000000000#64 0x3FF0000000000000#64 = false ∧ fgt 0#64 0x8000000000000000#64 = false ∧
    fgt 0x3FF0000000000000#64 0x7FF8000000000000#64 = false := by decide +kernel

/-- ScalarFloatRangeCommand and MultiWordFloatRangeCommand: both clauses. -/
theorem witness_FloatRangeCommands :
    fgt 0x4018000000000000#64 0x3FF0000000000000#64 = true ∧ fgt 1#64 0#64 = true ∧
    fgt 0x3FF0000000000000#64 0x4018000000000000#64 = false := by decide +kernel

/-- FloatRangeContainment: finite bounds, a finite difference, and an OK answer of each command; MAPF reaches hi. -/
theorem witness_FloatRangeContainment :
    isFinite 0x3FF0000000000000#64 = true ∧ isFinite 0x4000000000000000#64 = true ∧
    isFinite (fsub 0x4000000000000000#64 0x3FF0000000000000#64) = true ∧
    (answer (exec (.mapf 0x3FEFFFFFFFFFFFFF#64 0x3FF0000000000000#64 0x4000000000000000#64) seeded)).map (·.1) =
      some 0 ∧
    (answer (exec (.rngfs 0x3FF0000000000000#64 0x4000000000000000#64) seeded)).map (·.1) = some 0 ∧
    (answer (exec (.rngfx 0x3FF0000000000000#64 0x4000000000000000#64) seeded)).map (·.1) = some 0 := by
  decide +kernel

/-- FloatMapInfiniteCases: a difference that overflows with raw 0, -0.0 and 0.5; hi = +inf with finite lo; lo = -inf. -/
theorem witness_FloatMapInfiniteCases :
    (fgt 0x7FEFFFFFFFFFFFFF#64 0xFFEFFFFFFFFFFFFF#64 = true ∧ isFinite 0xFFEFFFFFFFFFFFFF#64 = true ∧
      isFinite (fsub 0x7FEFFFFFFFFFFFFF#64 0xFFEFFFFFFFFFFFFF#64) = false) ∧
    (fge 0#64 0#64 = true ∧ flt 0#64 0x3FF0000000000000#64 = true ∧ floatValue 0#64 = 0) ∧
    floatValue 0x8000000000000000#64 = 0 ∧
    (fge 0x3FE0000000000000#64 0#64 = true ∧ flt 0x3FE0000000000000#64 0x3FF0000000000000#64 = true ∧
      0 < floatValue 0x3FE0000000000000#64) ∧
    (fgt 0x7FF0000000000000#64 0x3FF0000000000000#64 = true ∧ isFinite 0x3FF0000000000000#64 = true ∧
      isFinite 0x7FF0000000000000#64 = false) ∧
    fgt 0#64 0xFFF0000000000000#64 = true := by decide +kernel

/-- FloatSumNearest: a tie (1 + 2^-53, between 1 and 1 + 2^-52), and the sums at and just below the overflow bound. -/
theorem witness_FloatSumNearest :
    isFinite 0x3FF0000000000000#64 = true ∧ isFinite 0x3CA0000000000000#64 = true ∧
    fadd 0x3FF0000000000000#64 0x3CA0000000000000#64 = 0x3FF0000000000000#64 ∧
    (floatValue 0x3FF0000000000000#64 -
        (floatValue 0x3FF0000000000000#64 + floatValue 0x3CA0000000000000#64)).natAbs =
      (floatValue 0x3FF0000000000001#64 -
        (floatValue 0x3FF0000000000000#64 + floatValue 0x3CA0000000000000#64)).natAbs ∧
    (overflowUnits ≤ (floatValue 0x7FEFFFFFFFFFFFFF#64 + floatValue 0x7C90000000000000#64).natAbs ∧
      fadd 0x7FEFFFFFFFFFFFFF#64 0x7C90000000000000#64 = 0x7FF0000000000000#64) ∧
    (¬ overflowUnits ≤ (floatValue 0x7FEFFFFFFFFFFFFF#64 + floatValue 0x7C8FFFFFFFFFFFFF#64).natAbs ∧
      fadd 0x7FEFFFFFFFFFFFFF#64 0x7C8FFFFFFFFFFFFF#64 = 0x7FEFFFFFFFFFFFFF#64) ∧
    fadd 0xFFEFFFFFFFFFFFFF#64 0xFC90000000000000#64 = 0xFFF0000000000000#64 := by decide +kernel

/-- FloatSumNearest, the zero clause: V-MAPF-2's last addition (an exact cancellation), +0 + -0, and -0 + -0. -/
theorem witness_FloatSumNearest_zero :
    (isFinite 0x4004000000000000#64 = true ∧ isFinite 0xC004000000000000#64 = true ∧
      floatValue 0x4004000000000000#64 + floatValue 0xC004000000000000#64 = 0 ∧
      fadd 0x4004000000000000#64 0xC004000000000000#64 = 0#64) ∧
    (floatValue 0#64 + floatValue 0x8000000000000000#64 = 0 ∧ fadd 0#64 0x8000000000000000#64 = 0#64) ∧
    fadd 0x8000000000000000#64 0x8000000000000000#64 = 0x8000000000000000#64 := by decide +kernel

/-- FloatDifferenceNearest: an exact difference (V-MAPF-2's first operation, 7.5 - -2.5 = 10.0), a tie (1 - 2^-54 to 1),
the overflow bound and just below it, and both zeros. -/
theorem witness_FloatDifferenceNearest :
    (isFinite 0x401E000000000000#64 = true ∧ isFinite 0xC004000000000000#64 = true ∧
      fsub 0x401E000000000000#64 0xC004000000000000#64 = 0x4024000000000000#64) ∧
    (fsub 0x3FF0000000000000#64 0x3C90000000000000#64 = 0x3FF0000000000000#64 ∧
      (floatValue 0x3FF0000000000000#64 -
          (floatValue 0x3FF0000000000000#64 - floatValue 0x3C90000000000000#64)).natAbs =
        (floatValue 0x3FEFFFFFFFFFFFFF#64 -
          (floatValue 0x3FF0000000000000#64 - floatValue 0x3C90000000000000#64)).natAbs) ∧
    (overflowUnits ≤ (floatValue 0x7FEFFFFFFFFFFFFF#64 - floatValue 0xFC90000000000000#64).natAbs ∧
      fsub 0x7FEFFFFFFFFFFFFF#64 0xFC90000000000000#64 = 0x7FF0000000000000#64) ∧
    (¬ overflowUnits ≤ (floatValue 0x7FEFFFFFFFFFFFFF#64 - floatValue 0xFC8FFFFFFFFFFFFF#64).natAbs ∧
      fsub 0x7FEFFFFFFFFFFFFF#64 0xFC8FFFFFFFFFFFFF#64 = 0x7FEFFFFFFFFFFFFF#64) ∧
    fsub 0xFFEFFFFFFFFFFFFF#64 0x7FEFFFFFFFFFFFFF#64 = 0xFFF0000000000000#64 ∧
    (floatValue 0x3FF0000000000000#64 - floatValue 0x3FF0000000000000#64 = 0 ∧
      fsub 0x3FF0000000000000#64 0x3FF0000000000000#64 = 0#64) ∧
    fsub 0x8000000000000000#64 0#64 = 0x8000000000000000#64 := by decide +kernel

/-- FloatProductNearest, the zero clause: V-MAPF-6's product 1.0 * -0.0, and a product that underflows with either sign. -/
theorem witness_FloatProductNearest_zero :
    fmul 0x3FF0000000000000#64 0x8000000000000000#64 = 0x8000000000000000#64 ∧
    (floatValue (fmul 1#64 0x8000000000000001#64) = 0 ∧
      fmul 1#64 0x8000000000000001#64 = 0x8000000000000000#64) ∧
    fmul 0x8000000000000001#64 0x8000000000000001#64 = 0#64 := by decide +kernel

/-- FloatProductNearest: a tie at the least number (0.5 * 2^-1074), and a product above the overflow bound. -/
theorem witness_FloatProductNearest :
    isFinite 0x3FE0000000000000#64 = true ∧ isFinite 1#64 = true ∧ fmul 0x3FE0000000000000#64 1#64 = 0#64 ∧
    (floatValue 0#64 * (oneUnits : Int) - floatValue 0x3FE0000000000000#64 * floatValue 1#64).natAbs =
      (floatValue 1#64 * (oneUnits : Int) - floatValue 0x3FE0000000000000#64 * floatValue 1#64).natAbs ∧
    overflowUnits * oneUnits ≤ (floatValue 0x7FEFFFFFFFFFFFFF#64 * floatValue 0xC000000000000000#64).natAbs ∧
    fmul 0x7FEFFFFFFFFFFFFF#64 0xC000000000000000#64 = 0xFFF0000000000000#64 ∧
    fmul 0x7FEFFFFFFFFFFFFF#64 0x3FEFFFFFFFFFFFFF#64 = 0x7FEFFFFFFFFFFFFE#64 := by decide +kernel

/-- FloatNaNCanonical: NaNs made from infinities, and a NaN operand with another payload. -/
theorem witness_FloatNaNCanonical :
    isNaN (fadd 0x7FF0000000000000#64 0xFFF0000000000000#64) = true ∧
    isNaN (fsub 0x7FF0000000000000#64 0x7FF0000000000000#64) = true ∧
    isNaN (fmul 0x7FF0000000000000#64 0x8000000000000000#64) = true ∧ isNaN 0xFFF0000000000001#64 = true := by
  decide +kernel

/-- FloatComparisons: a NaN, and finite numbers that are equal with different patterns. -/
theorem witness_FloatComparisons :
    isNaN 0x7FF0000000000001#64 = true ∧ isFinite 0#64 = true ∧ isFinite 0x8000000000000000#64 = true ∧
    fge 0x8000000000000000#64 0#64 = true ∧ fgt 0#64 0x8000000000000000#64 = false ∧
    fgt 1#64 0x8000000000000001#64 = true := by decide +kernel

/-- FractionFloatExact: both ends of the range. -/
theorem witness_FractionFloatExact : 0 < 2 ^ 53 ∧ 2 ^ 53 - 1 < 2 ^ 53 := by decide

/-- DecodeLegality: a word for each clause, at its edges. -/
theorem witness_DecodeLegality :
    (0x00000000#32).toNat % 256 ∉ opcodes ∧ (0xFFFFFFFF#32).toNat % 256 ∉ opcodes ∧
    ((0x00008010#32).toNat % 256 ∈ opcodes ∧ (0x00008010#32).toNat / 32768 ≠ 0) ∧
    ((0x00000130#32).toNat % 256 ∈ opcodes ∧ (0x00000130#32).toNat / 32768 = 0 ∧
      (0x00000130#32).toNat / 256 % 128 ≠ 0 ∧ (0x00000130#32).toNat % 256 ≠ 0x32) ∧
    ((0x00007F32#32).toNat % 256 ∈ opcodes ∧ (0x00007F32#32).toNat / 32768 = 0 ∧
      (0x00007F32#32).toNat % 256 = 0x32) ∧
    ((0x00000059#32).toNat % 256 ∈ opcodes ∧ (0x00000059#32).toNat / 32768 = 0 ∧
      (0x00000059#32).toNat / 256 % 128 = 0) := by decide

/-- DecodeOfEncode, LegalWordUnique: the widest bit count. -/
theorem witness_DecodeOfEncode :
    Instr.wellFormed (.xbits 127) = true ∧ decode (encode (.xbits 127)) = .ok (.xbits 127) ∧
    decode (encode (.mapf 1 2 3)) = .ok (.mapf 1 2 3) := by decide

/-- UnusedOperandsIgnored: two commands that differ in words RNGU and RDX do not read. -/
theorem witness_UnusedOperandsIgnored :
    ((0x48#32).toNat % 256 ∉ [0x40, 0x41, 0x50]) ∧
    decode ⟨0x48#32, 1, 6, 0⟩ = decode ⟨0x48#32, 1, 6, 9⟩ ∧
    ((0x02#32).toNat % 256 ∉ [0x10, 0x12, 0x40, 0x41, 0x48, 0x49, 0x50, 0x58, 0x59]) ∧
    decode ⟨0x02#32, 0, 0, 0⟩ = decode ⟨0x02#32, 7, 8, 9⟩ := by decide

/-- StatusFromCommandAlone, StreamMovers: one command from two states. -/
theorem witness_StatusFromCommandAlone :
    (∃ t, exec (.rngu 1 6) seeded = .next t) ∧ (∃ t, exec (.rngu 1 6) (idle 0 ⟨1, 2, 3, 4⟩) = .next t) ∧
    movesScalar (.rngu 1 6) = false ∧ movesMultiWord .mix = false ∧ (∃ t, exec .mix seeded = .next t) :=
  ⟨⟨_, rfl⟩, ⟨_, rfl⟩, rfl, rfl, ⟨_, rfl⟩⟩

/-- ErrorLeavesState, StatusProducers, StreamMovers: commands on the port that answer RANGE, OTHER and ILLEGAL. -/
theorem witness_errors :
    answer (runCommand (withCommand seeded ⟨0x48#32, 5, 4, 0⟩)) =
      some (1, ⟨0, 0, 0, 0⟩, 0x78DDE6E5FD3CC6DB#64, words1) ∧
    answer (runCommand (withCommand seeded ⟨0x00000032#32, 0, 0, 0⟩)) =
      some (4, ⟨0, 0, 0, 0⟩, 0x78DDE6E5FD3CC6DB#64, words1) ∧
    answer (runCommand (withCommand seeded ⟨0x000000FF#32, 0, 0, 0⟩)) =
      some (5, ⟨0, 0, 0, 0⟩, 0x78DDE6E5FD3CC6DB#64, words1) := by decide

/-- ReadOnlyCommandsIdempotent. -/
theorem witness_ReadOnlyCommandsIdempotent :
    readOnly (.mixp 5) = true ∧ ∃ t, exec (.mixp 5) seeded = .next t := ⟨rfl, _, rfl⟩

/-- ResponseDependsOnStateAndCommand: two states with different earlier responses and ports. -/
theorem witness_ResponseDependsOnStateAndCommand :
    (seeded.seed = (withCommand { seeded with rspStatus := 0 } ⟨1, 2, 3, 4⟩).seed ∧
      seeded.x = (withCommand { seeded with rspStatus := 0 } ⟨1, 2, 3, 4⟩).x ∧
      seeded.pins.entropy = (withCommand { seeded with rspStatus := 0 } ⟨1, 2, 3, 4⟩).pins.entropy) ∧
    ∃ t, exec .xu64 seeded = .next t := ⟨⟨rfl, rfl, rfl⟩, _, rfl⟩

/-- EntropyReadBySeedZeroAlone: an instruction of each clause. -/
theorem witness_EntropyReadBySeedZeroAlone :
    (Instr.seed 1 ≠ .seed 0 ∧ ∃ t, exec (.seed 1) seeded = .next t) ∧
    ((5 : Word) ≠ 0 ∧ ∃ t, exec (.seed 5) seeded = .next t) :=
  ⟨⟨by decide, _, rfl⟩, by decide, _, rfl⟩

/-- ZeroSeedStuck: seed 0, bounds 3.0 and 5.0 (V-RNGF-5), and a command that is neither SEED nor MIX. -/
theorem witness_ZeroSeedStuck :
    (idle 0 words1).seed = 0 ∧ fgt 0x4014000000000000#64 0x4008000000000000#64 = true ∧
    isFinite 0x4008000000000000#64 = true ∧
    isFinite (fsub 0x4014000000000000#64 0x4008000000000000#64) = true ∧
    answer (exec (.rngfs 0x4008000000000000#64 0x4014000000000000#64) (idle 0 words1)) =
      some (0, ⟨0x4008000000000000#64, 0, 0, 0⟩, 0, words1) := by decide +kernel

/-- MixReachesEverySeed, its last clause: entropy 0x8722191A02D60FAC on the port (V-SEED-5). -/
theorem witness_MixReachesEverySeed :
    ({ seeded with pins := { PortIn.quiet with entropy := 0x8722191A02D60FAC#64 } } : State).pins.entropy =
      0x8722191A02D60FAC#64 ∧
    (answer (exec (.seed 0) { seeded with pins := { PortIn.quiet with entropy := 0x8722191A02D60FAC#64 } })).map
      (fun r => r.2.2.1) = some 0 := by decide

/-- XorshiftBijective, AdvanceBijective: their last clauses. -/
theorem witness_fixed_points : xsStep 0 = 0 ∧ xoAdvance ⟨0, 0, 0, 0⟩ = ⟨0, 0, 0, 0⟩ := by decide

/-- StepKeepsMultiWordAlive, StepKeepsResponseLegal: a legal state that goes on. -/
theorem witness_invariants :
    multiWordAlive { seeded with rspStatus := 0, rspRes := Quad.zero } ∧
    responseLegal { seeded with rspStatus := 0, rspRes := Quad.zero } ∧
    ∃ t, step { seeded with rspStatus := 0, rspRes := Quad.zero } = .next t := by
  refine ⟨by simp only [multiWordAlive]; decide, ?_, _, rfl⟩
  exact ⟨.inl rfl, fun h => absurd rfl h, fun _ => ⟨rfl, rfl⟩⟩

/-- StepRunsDecodedCommand, StepAnswersIllegal: a command that decodes, and one that does not, on an idle port. -/
theorem witness_accepted :
    (withCommand seeded ⟨0x48#32, 1, 6, 0⟩).pins.rstN = true ∧
    (withCommand seeded ⟨0x48#32, 1, 6, 0⟩).outstanding = none ∧
    (withCommand seeded ⟨0x48#32, 1, 6, 0⟩).pins.cmdValid = true ∧
    decode (withCommand seeded ⟨0x48#32, 1, 6, 0⟩).pins.command = .ok (.rngu 1 6) ∧
    decode (withCommand seeded ⟨0x03#32, 1, 6, 0⟩).pins.command = .error .unassignedOpcode := by decide

/-- PlacedWordRuns: a word of the table, placed while a response still waits. -/
theorem witness_PlacedWordRuns :
    decodeTableWord 32 0x00000030 = some .xu64 ∧
    answer (step ({ seeded with outstanding := some 3 }.withFetchWord 32 0x00000030)) =
      some (0, ⟨0x30A3A1C363600467#64, 0, 0, 0⟩, 0x78DDE6E5FD3CC6DB#64, words2) := by decide

/-- OneCommandOutstanding and NoHandshakeNoEffect: a wait, a response that is held, one that is taken, an idle edge. -/
theorem witness_handshakes :
    taken { seeded with outstanding := some 2 } = none ∧ taken { seeded with outstanding := some 0 } = none ∧
    taken { seeded with outstanding := some 0, pins := { PortIn.quiet with rspReady := true } } =
      some (7, ⟨9, 9, 9, 9⟩) ∧
    (seeded.pins.rstN = true ∧ seeded.outstanding = none ∧ seeded.pins.cmdValid = false) := by decide

/-- ResponseDelivered: three edges of wait, one of them with a command the block does not accept, none in reset. -/
theorem witness_ResponseDelivered :
    noResetFor 3 { seeded with outstanding := some 3, script := [{ PortIn.quiet with cmdValid := true }] } ∧
    ({ seeded with outstanding := some 3 } : State).outstanding = some 3 := by
  refine ⟨⟨rfl, ?_⟩, rfl⟩
  simp [PortIn.quiet]

/-- ResetEdgeEffect: an edge in reset with a response waiting and a command on the port. -/
theorem witness_ResetEdgeEffect :
    ({ seeded with outstanding := some 0, pins := { PortIn.quiet with rstN := false, cmdValid := true } } :
      State).pins.rstN = false ∧
    ∃ t, step { seeded with outstanding := some 0, pins := { PortIn.quiet with rstN := false, cmdValid := true } } =
      .next t := ⟨rfl, _, rfl⟩

/-- InstancesIsolated: a platform of two blocks, each of which can step. -/
theorem witness_InstancesIsolated :
    ∃ q, platformStep 0 ⟨[seeded, idle 0 words2]⟩ = .next q ∧ ∃ r, platformStep 1 q = .next r :=
  ⟨_, rfl, _, rfl⟩

end Sys2Proof.Tests
end

section
/-! The comparisons of R9 on NaNs, infinities and finite numbers, and the exactness of R10's fraction. -/

namespace Sys2Proof.Proofs

open Sys2Proof.Machine Sys2Proof.Claims

/-! ### The comparisons (R9) -/

theorem datum_eq_nan_of_isNaN {a : Word} (h : isNaN a = true) : datum a = .nan := by
  simpa [isNaN] using h

theorem flt_of_isNaN {a b : Word} (h : isNaN a = true ∨ isNaN b = true) : flt a b = false := by
  unfold flt
  rcases h with ha | hb
  · rw [datum_eq_nan_of_isNaN ha]
  · rw [datum_eq_nan_of_isNaN hb]; cases datum a <;> rfl

theorem fle_of_isNaN {a b : Word} (h : isNaN a = true ∨ isNaN b = true) : fle a b = false := by
  unfold fle
  rcases h with ha | hb
  · rw [datum_eq_nan_of_isNaN ha]
  · rw [datum_eq_nan_of_isNaN hb]; cases datum a <;> rfl

/-- A finite number is below the infinity of sign `neg` exactly when that is +inf. -/
theorem flt_inf_right {a b : Word} {neg : Bool} (ha : isFinite a = true) (hb : datum b = .inf neg) :
    flt a b = !neg := by
  rw [flt, datum_of_isFinite ha, hb]

/-- The infinity of sign `neg` is below a finite number exactly when it is -inf. -/
theorem flt_inf_left {a b : Word} {neg : Bool} (ha : datum a = .inf neg) (hb : isFinite b = true) :
    flt a b = neg := by
  rw [flt, datum_of_isFinite hb, ha]

/-- Settles O23: a NaN makes each comparison false, finite numbers compare by value, and +inf lies above and -inf below
every finite number. -/
theorem floatComparisons : Obligations.FloatComparisons := by
  intro a b
  refine ⟨fun nan => ⟨flt_of_isNaN nan.symm, fle_of_isNaN nan.symm, flt_of_isNaN nan⟩, fun ha hb => ⟨?_, ?_, ?_⟩,
    fun hb => ⟨?_, ?_⟩⟩
  · rw [fgt, flt_of_isFinite hb ha, decide_eq_true_iff]
  · rw [fge, fle_of_isFinite hb ha, decide_eq_true_iff]
  · rw [flt_of_isFinite ha hb, decide_eq_true_iff]
  · exact flt_inf_right (neg := false) hb (by decide)
  · exact flt_inf_left (neg := true) (by decide) hb

/-! ### The fraction of a 53-bit quantity (R10) -/

theorem toNat_floatPattern_false {mag : Nat} (h : mag < 2 ^ 64) : (floatPattern false mag).toNat = mag := by
  simpa [floatPattern] using h

/-- Shifted up to 53 bits, a positive quantity has its leading bit at place 52. -/
theorem significand_bounds {m : Nat} (pos : 0 < m) (h : m < 2 ^ 53) :
    2 ^ 52 ≤ m * 2 ^ (53 - bitLength m) ∧ m * 2 ^ (53 - bitLength m) < 2 ^ 53 := by
  obtain ⟨lower, upper, len⟩ := bitLength_spec pos
  have short := bitLength_le h
  constructor
  · calc 2 ^ 52 = 2 ^ (bitLength m - 1) * 2 ^ (53 - bitLength m) := by rw [← pow_add]; congr 1; omega
      _ ≤ m * 2 ^ (53 - bitLength m) := Nat.mul_le_mul_right _ lower
  · calc m * 2 ^ (53 - bitLength m) < 2 ^ bitLength m * 2 ^ (53 - bitLength m) :=
          Nat.mul_lt_mul_of_pos_right upper (by positivity)
      _ = 2 ^ 53 := by rw [← pow_add]; congr 1; omega

/-- The whole significand, leading bit included, is added to an exponent field one smaller. -/
theorem u53ToF64_of_pos {m : Nat} (pos : 0 < m) (h : m < 2 ^ 53) :
    u53ToF64 m = floatPattern false ((bitLength m + 968) * 2 ^ 52 + m * 2 ^ (53 - bitLength m)) := by
  obtain ⟨lower, upper⟩ := significand_bounds pos h
  have carry : (bitLength m + 969) * 2 ^ 52 + m * 2 ^ (53 - bitLength m) % 2 ^ 52 =
      (bitLength m + 968) * 2 ^ 52 + m * 2 ^ (53 - bitLength m) := by omega
  rw [floatPattern, if_neg Bool.false_ne_true, Nat.add_zero, ← carry, u53ToF64, if_neg pos.ne']

/-- Sign 0, magnitude bits of at most those of 1 - 2^-53, and units that times 2^53 are m times those of 1.0. -/
theorem u53ToF64_magnitude {m : Nat} (h : m < 2 ^ 53) :
    ∃ mag ≤ 0x3FEFFFFFFFFFFFFF, u53ToF64 m = floatPattern false mag ∧ magUnits mag * 2 ^ 53 = m * oneUnits := by
  rcases Nat.eq_zero_or_pos m with rfl | pos
  · exact ⟨0, by norm_num, rfl, by rw [Nat.zero_mul]; rfl⟩
  · obtain ⟨lower, upper⟩ := significand_bounds pos h
    have short := bitLength_le h
    refine ⟨_, by omega, u53ToF64_of_pos pos h, ?_⟩
    rw [magUnits_scaled upper.le (.inr lower), Nat.mul_assoc, Nat.mul_assoc, ← pow_add, ← pow_add, oneUnits,
      show 53 - bitLength m + (bitLength m + 968 + 53) = 1074 by omega]

/-- Settles O24: `u53ToF64 m` is the pattern of sign 0 and a magnitude of exactly m / 2^53, below that of 1.0. -/
theorem fractionFloatExact : Obligations.FractionFloatExact := by
  intro m h
  obtain ⟨mag, bound, pattern, units⟩ := u53ToF64_magnitude h
  have small : mag < 2 ^ 63 := by omega
  have finite : mag < infinityMag := by unfold infinityMag; omega
  rw [pattern]
  refine ⟨⟨(isFinite_floatPattern false finite.le).mpr finite, (floatPattern_fields false small).1, ?_⟩, ?_⟩
  · rw [floatValue_floatPattern false small, signed, if_neg Bool.false_ne_true]
    exact_mod_cast units
  · rw [toNat_floatPattern_false (by omega)]
    exact bound

end Sys2Proof.Proofs
end

section
/-! The finaliser of R110 and the advance of R140 are injective, so neither makes X all zero (R34). -/

namespace Sys2Proof.Proofs

open Sys2Proof.Machine

/-- A word equal to its own shift to the right by at least one place is 0. -/
theorem eq_zero_of_ushiftRight_eq {w : Word} {k : Nat} (hk : 0 < k) (h : w >>> k = w) : w = 0 := by
  have shifted : w.toNat / 2 ^ k = w.toNat := by
    rw [← Nat.shiftRight_eq_div_pow, ← BitVec.toNat_ushiftRight, h]
  by_contra nonzero
  have pos : 0 < w.toNat := Nat.pos_of_ne_zero fun hz => nonzero (BitVec.eq_of_toNat_eq hz)
  exact absurd shifted (Nat.div_lt_self pos (Nat.one_lt_two_pow hk.ne')).ne

/-- A word equal to its own shift to the left by at least one place is 0: each bit is the bit `k` places below. -/
theorem eq_zero_of_shiftLeft_eq {w : Word} {k : Nat} (hk : 0 < k) (h : w <<< k = w) : w = 0 := by
  have bits : ∀ i, w.getLsbD i = false := by
    intro i
    induction i using Nat.strong_induction_on with
    | _ i below =>
      rw [← h, BitVec.getLsbD_shiftLeft]
      by_cases hi : i < k
      · simp [hi]
      · simp [below (i - k) (by omega)]
  exact BitVec.eq_of_getLsbD_eq fun i _ => by simp [bits i]

/-- `z ^^^ f z` determines `z` when `f` is linear and fixes 0 alone. -/
theorem xorLinear_injective {f : Word → Word} (linear : ∀ y z, f (y ^^^ z) = f y ^^^ f z)
    (fixed : ∀ w, f w = w → w = 0) : Function.Injective fun z => z ^^^ f z := by
  intro y z h
  replace h : y ^^^ f y = z ^^^ f z := h
  refine BitVec.xor_eq_zero_iff.mp (fixed _ ?_)
  calc f (y ^^^ z) = y ^^^ (y ^^^ f y) ^^^ f z := by rw [linear, ← BitVec.xor_assoc, BitVec.xor_self, BitVec.zero_xor]
    _ = y ^^^ z := by rw [h, BitVec.xor_assoc, BitVec.xor_assoc, BitVec.xor_self, BitVec.xor_zero]

theorem xorShiftRight_injective {k : Nat} (hk : 0 < k) : Function.Injective fun z : Word => z ^^^ z >>> k :=
  xorLinear_injective (fun y z => BitVec.ushiftRight_xor_distrib y z k) fun _ => eq_zero_of_ushiftRight_eq hk

theorem xorShiftLeft_injective {k : Nat} (hk : 0 < k) : Function.Injective fun z : Word => z ^^^ z <<< k :=
  xorLinear_injective (fun y z => BitVec.shiftLeft_xor_distrib y z k) fun _ => eq_zero_of_shiftLeft_eq hk

/-- Rotating back by the remaining places undoes a rotation. -/
theorem rotl64_rotl64 {k : Nat} (hk : 0 < k) (hk' : k < 64) (a : Word) : rotl64 (rotl64 a k) (64 - k) = a := by
  have back : 64 - (64 - k) = k := by omega
  have beyond : ∀ i, a.getLsbD (64 - k + (k + i)) = false := fun i => BitVec.getLsbD_of_ge _ _ (by omega)
  ext i hi
  simp only [rotl64, back, BitVec.getElem_or, BitVec.getElem_shiftLeft, BitVec.getElem_ushiftRight,
    BitVec.getLsbD_or, BitVec.getLsbD_shiftLeft, BitVec.getLsbD_ushiftRight, beyond]
  by_cases low : i < 64 - k
  · have inside : k + i < 64 := by omega
    simp [low, inside, BitVec.getLsbD_eq_getElem hi]
  · have outside : ¬k + i < 64 := by omega
    have wrapped : i - (64 - k) < k := by omega
    have same : 64 - k + (i - (64 - k)) = i := by omega
    simp [low, outside, wrapped, same, BitVec.getLsbD_eq_getElem hi]

/-- Multiplication by a factor with an inverse modulo 2^64 loses nothing. -/
theorem mul_injective_of_inverse {c d : Word} (h : c * d = 1#64) : Function.Injective fun z : Word => z * c := by
  intro y z hyz
  have undone := congrArg (· * d) hyz
  simpa [BitVec.mul_assoc, h] using undone

theorem mixFin_injective : Function.Injective mixFin := by
  intro y z h
  refine xorShiftRight_injective (k := 30) (by decide) ?_
  refine mul_injective_of_inverse (c := 0xbf58476d1ce4e5b9#64) (d := 0x96de1b173f119089#64) (by decide) ?_
  refine xorShiftRight_injective (k := 27) (by decide) ?_
  refine mul_injective_of_inverse (c := 0x94d049bb133111eb#64) (d := 0x319642b2d24d8ec3#64) (by decide) ?_
  exact xorShiftRight_injective (k := 31) (by decide) h

/-- X[0], then X[1], X[2] and X[3] are read back from the words after the advance. -/
theorem xoAdvance_injective : Function.Injective xoAdvance := by
  rintro ⟨x0, x1, x2, x3⟩ ⟨y0, y1, y2, y3⟩ h
  simp only [xoAdvance, Quad.mk.injEq] at h
  obtain ⟨h0, h1, h2, h3⟩ := h
  have same31 : x3 ^^^ x1 = y3 ^^^ y1 := by
    rw [← rotl64_rotl64 (k := 45) (by decide) (by decide) (x3 ^^^ x1), h3, rotl64_rotl64 (by decide) (by decide)]
  have same0 : x0 = y0 := by rwa [same31, BitVec.xor_left_inj] at h0
  have same1 : x1 = y1 := by
    refine xorShiftLeft_injective (k := 17) (by decide) ?_
    calc x1 ^^^ x1 <<< 17 = (x1 ^^^ (x2 ^^^ x0)) ^^^ ((x2 ^^^ x0) ^^^ x1 <<< 17) := by grind
      _ = (y1 ^^^ (y2 ^^^ y0)) ^^^ ((y2 ^^^ y0) ^^^ y1 <<< 17) := by rw [h1, h2]
      _ = y1 ^^^ y1 <<< 17 := by grind
  subst same0 same1
  rw [BitVec.xor_left_inj] at same31
  rw [BitVec.xor_right_inj, BitVec.xor_left_inj] at h1
  rw [same31, h1]

theorem xoAdvance_zero : xoAdvance Quad.zero = Quad.zero := by decide

/-- Two words of the four are the finaliser's at two neighbouring seeds, and the finaliser sends one word alone to 0. -/
theorem derive4_ne_zero (v : Word) : (derive4 v).2 ≠ Quad.zero := by
  intro h
  simp only [derive4_eq, Quad.zero, Quad.mk.injEq] at h
  obtain ⟨h0, h1, -, -⟩ := h
  have same : v + gamma = v + gamma + gamma := mixFin_injective (h0.trans h1.symm)
  exact absurd (left_eq_add.mp same) (by decide)

end Sys2Proof.Proofs
end

section
/-! What a command answers. The answer, and the registers a command leaves, are fixed by the registers it finds and, for
SEED of 0 alone, by the entropy (R26, R28). -/

namespace Sys2Proof.Proofs

open Sys2Proof.Machine

variable {s t : State}

/-- `u` agrees with `s` in everything the command `i` may read. -/
structure ReadsAlike (i : Instr) (s u : State) : Prop where
  seed : u.seed = s.seed
  x : u.x = s.x
  entropy : i = .seed 0 → u.pins.entropy = s.pins.entropy

theorem ReadsAlike.refl (i : Instr) (s : State) : ReadsAlike i s s := ⟨rfl, rfl, fun _ => rfl⟩

theorem ReadsAlike.seedValue_eq {v : Word} {u : State} (h : ReadsAlike (.seed v) s u) :
    seedValue v u = seedValue v s := by
  by_cases hv : v ≠ 0
  · rw [seedValue, seedValue, if_pos hv, if_pos hv]
  · have zero : v = 0 := not_not.mp hv
    rw [seedValue, seedValue, if_neg hv, if_neg hv, h.entropy (by rw [zero])]

/-- What a command can leave in X: X as it was, its advance, or words derived from a seed value. -/
def XReachable (s : State) (x : Quad) : Prop := x = s.x ∨ x = xoAdvance s.x ∨ ∃ v, x = (derive4 v).2

/-- From `s`, the command `i` completes with one answer, the same from every state that agrees with `s` in what it reads;
it writes SEED, X and the response alone. -/
def AnswersAlike (i : Instr) (s : State) : Prop :=
  ∃ seed x st res, XReachable s x ∧
    ∀ u, ReadsAlike i s u → exec i u = .next (respond (setX (setSeed u seed) x) st res)

theorem AnswersAlike.of_respond {i : Instr} (st : Status) (res : Quad)
    (h : ∀ u, ReadsAlike i s u → exec i u = .next (respond u st res)) : AnswersAlike i s :=
  ⟨s.seed, s.x, st, res, .inl rfl, fun u hu => by rw [h u hu, ← hu.seed, ← hu.x]; rfl⟩

theorem AnswersAlike.of_setSeed {i : Instr} (v : Word) (st : Status) (res : Quad)
    (h : ∀ u, ReadsAlike i s u → exec i u = .next (respond (setSeed u v) st res)) : AnswersAlike i s :=
  ⟨v, s.x, st, res, .inl rfl, fun u hu => by rw [h u hu, ← hu.x]; rfl⟩

theorem AnswersAlike.of_advance {i : Instr} (st : Status) (res : Quad)
    (h : ∀ u, ReadsAlike i s u → exec i u = .next (respond (setX u (xoAdvance s.x)) st res)) : AnswersAlike i s :=
  ⟨s.seed, xoAdvance s.x, st, res, .inr (.inl rfl), fun u hu => by rw [h u hu, ← hu.seed]; rfl⟩

theorem AnswersAlike.of_completeMapped {i : Instr} (r : Except Status Word)
    (h : ∀ u, exec i u = completeMapped u r) : AnswersAlike i s := by
  cases r with
  | ok w => exact .of_respond .ok (Quad.single w) fun u _ => h u
  | error st => exact .of_respond st Quad.zero fun u _ => h u

/-- A range command on X: its check, and after it a mapping that does not raise. -/
theorem AnswersAlike.of_completeDrawn {i : Instr} {check : Bool} {r : Except Status Word}
    (completes : check = true → ∃ w, r = .ok w)
    (h : ∀ u, ReadsAlike i s u → exec i u =
      if check then completeDrawn (setX u (xoAdvance s.x)) r else .next (respond u .range Quad.zero)) :
    AnswersAlike i s := by
  cases check with
  | true =>
    obtain ⟨w, rfl⟩ := completes rfl
    exact .of_advance .ok (Quad.single w) h
  | false => exact .of_respond .range Quad.zero h

/-- The raw-value check passes for every generated fraction (R10, R182). -/
theorem rawOkF_u53ToF64 {m : Nat} (h : m < 2 ^ 53) : rawOkF (u53ToF64 m) = true := by
  obtain ⟨⟨finite, sign, -⟩, bound⟩ := fractionFloatExact m h
  have zero : isFinite 0#64 = true := by decide
  have one : isFinite floatOne = true := by decide
  have value : floatValue (u53ToF64 m) = magUnits (u53ToF64 m).toNat := by
    rw [floatValue_eq, sign, Nat.mod_eq_of_lt (by omega)]; rfl
  have valueOne : floatValue floatOne = magUnits 0x3FF0000000000000 := floatValue_eq floatOne
  have below : magUnits (u53ToF64 m).toNat < magUnits 0x3FF0000000000000 := magUnits_strictMono (by omega)
  have valueZero : floatValue 0#64 = 0 := by decide
  rw [rawOkF, fge, fle_of_isFinite zero finite, flt_of_isFinite finite one, value, valueOne, valueZero,
    Bool.and_eq_true, decide_eq_true_iff, decide_eq_true_iff]
  exact ⟨Int.natCast_nonneg _, Int.ofNat_lt.mpr below⟩

theorem toNat_top53_lt (v : Word) : (v >>> 11).toNat < 2 ^ 53 := by
  have := v.isLt
  rw [BitVec.toNat_ushiftRight, Nat.shiftRight_eq_div_pow]
  omega

theorem rawOkF_xsFloat (seed : Word) : rawOkF (xsFloat seed) = true := rawOkF_u53ToF64 (toNat_top53_lt seed)

theorem rawOkF_xoOutF64 (x : Quad) : rawOkF (xoOutF64 x) = true := rawOkF_u53ToF64 (toNat_top53_lt (x.x0 + x.x3))

theorem exec_answersAlike (i : Instr) (s : State) : AnswersAlike i s := by
  cases i with
  | rdseed => exact .of_respond .ok (Quad.single s.seed) fun u hu => by rw [exec_rdseed, hu.seed]
  | rdx => exact .of_respond .ok s.x fun u hu => by rw [exec_rdx, hu.x]
  | seed v =>
    exact ⟨_, _, .ok, Quad.zero, .inr (.inr ⟨seedValue v s, rfl⟩), fun u hu => by rw [exec_seed, hu.seedValue_eq]⟩
  | mix => exact .of_setSeed _ .ok (Quad.single (mixStep s.seed).2) fun u hu => by rw [exec_mix, hu.seed]
  | mixp w => exact .of_respond .ok _ fun u _ => exec_mixp u w
  | xsf => exact .of_setSeed _ .ok (Quad.single (xsFloat (xsStep s.seed))) fun u hu => by rw [exec_xsf, hu.seed]
  | xu64 => exact .of_advance .ok (Quad.single (xoOutU64 s.x)) fun u hu => by rw [exec_xu64, hu.x]
  | xi64 => exact .of_advance .ok (Quad.single (xoOutU64 s.x)) fun u hu => by rw [exec_xi64, hu.x]
  | xbits b =>
    cases ok : bitCountOk b with
    | true =>
      exact .of_advance .ok (Quad.single (topBits (xoOutU64 s.x) b)) fun u hu => by rw [exec_xbits, if_pos ok, hu.x]
    | false => exact .of_respond .other Quad.zero fun u _ => by rw [exec_xbits, ok]; rfl
  | xf => exact .of_advance .ok (Quad.single (xoOutF64 s.x)) fun u hu => by rw [exec_xf, hu.x]
  | mapu raw lo hi => exact .of_completeMapped _ fun u => exec_mapu u raw lo hi
  | mapi raw lo hi => exact .of_completeMapped _ fun u => exec_mapi u raw lo hi
  | mapf raw lo hi => exact .of_completeMapped _ fun u => exec_mapf u raw lo hi
  | rngu lo hi =>
    exact .of_completeDrawn (fun ok => ⟨_, mapU_of_ok (xoOutU64 s.x) ok⟩) fun u hu => by rw [exec_rngu, hu.x]
  | rngi lo hi =>
    exact .of_completeDrawn (fun ok => ⟨_, mapI_of_ok (xoOutU64 s.x) ok⟩) fun u hu => by rw [exec_rngi, hu.x]
  | rngfs lo hi =>
    cases ok : rangeOkF lo hi with
    | true =>
      refine .of_setSeed (xsStep s.seed) .ok (Quad.single (lerpF (xsFloat (xsStep s.seed)) lo hi)) fun u hu => ?_
      rw [exec_rngfs, if_pos ok, hu.seed, mapF_of_ok ok (rawOkF_xsFloat _)]
      rfl
    | false => exact .of_respond .range Quad.zero fun u _ => by rw [exec_rngfs, ok]; rfl
  | rngfx lo hi =>
    exact .of_completeDrawn (fun ok => ⟨_, mapF_of_ok ok (rawOkF_xoOutF64 s.x)⟩) fun u hu => by rw [exec_rngfx, hu.x]

/-- Every command completes (R205). -/
theorem exec_completes (i : Instr) (s : State) : ∃ t, exec i s = .next t := by
  obtain ⟨seed, x, st, res, -, answer⟩ := exec_answersAlike i s
  exact ⟨_, answer s (.refl i s)⟩

end Sys2Proof.Proofs
end

section
/-! No step makes X all zero (R34). -/

namespace Sys2Proof.Proofs

open Sys2Proof.Machine

variable {s t : State}

theorem exec_x {i : Instr} (h : exec i s = .next t) : XReachable s t.x := by
  obtain ⟨seed, x, st, res, reachable, answer⟩ := exec_answersAlike i s
  rw [answer s (.refl i s)] at h
  cases h
  exact reachable

theorem exec_keeps_multiWordAlive {i : Instr} (alive : multiWordAlive s) (h : exec i s = .next t) :
    multiWordAlive t := by
  unfold multiWordAlive at *
  rcases exec_x h with same | advance | ⟨v, derived⟩
  · rwa [same]
  · rw [advance, ← xoAdvance_zero]
    exact xoAdvance_injective.ne alive
  · rw [derived]
    exact derive4_ne_zero v

theorem runCommand_keeps_multiWordAlive (alive : multiWordAlive s) (h : runCommand s = .next t) :
    multiWordAlive t := by
  rcases runCommand_cases h with ⟨i, -, hi⟩ | ⟨e, -, rfl⟩
  · exact exec_keeps_multiWordAlive alive hi
  · exact alive

/-- Settles O46: only an accepted command and an edge in reset write X, and neither leaves it all zero. -/
theorem stepKeepsMultiWordAlive : Obligations.StepKeepsMultiWordAlive := by
  intro s t alive h
  rcases step_cases h with ⟨-, rfl⟩ | ⟨-, -, -, rfl⟩ | ⟨-, -, -, u, hu, rfl⟩ | ⟨-, n, -, rfl⟩ | ⟨-, -, -, rfl⟩ |
    ⟨-, -, -, rfl⟩
  case inl => exact derive4_ne_zero _
  case inr.inr.inl => exact (runCommand_keeps_multiWordAlive alive hu :)
  all_goals exact alive

/-- Settles O47: X after reset is derived from RESET_XBASE. -/
theorem resetMultiWordAlive : Obligations.ResetMultiWordAlive := derive4_ne_zero _

end Sys2Proof.Proofs
end

section
/-! The response depends on the registers, the command and the entropy alone (R28), and the entropy is read by SEED of 0
alone (R26). -/

namespace Sys2Proof.Proofs

open Sys2Proof.Machine

variable {s t : State}

/-- From a state that agrees with `s` in what `i` reads, `i` leaves the registers and the response it leaves from `s`. -/
theorem exec_readsAlike {i : Instr} {u : State} (alike : ReadsAlike i s u) (h : exec i s = .next t) :
    exec i u = .next { u with seed := t.seed, x := t.x, rspStatus := t.rspStatus, rspRes := t.rspRes } := by
  obtain ⟨seed, x, st, res, -, answer⟩ := exec_answersAlike i s
  rw [answer s (.refl i s)] at h
  cases h
  exact answer u alike

/-- Settles O39: the two states agree in everything a command may read. -/
theorem responseDependsOnStateAndCommand : Obligations.ResponseDependsOnStateAndCommand := by
  intro i s s' t hseed hx hentropy h
  exact ⟨_, exec_readsAlike ⟨hseed.symm, hx.symm, fun _ => hentropy.symm⟩ h, rfl, rfl, rfl, rfl⟩

/-- `exec_seed` with the seed value and the words derived from it named, so that no proof compares sums of seeds. -/
theorem exec_seed_of_derived {v w : Word} {derived : Word × Quad} (value : seedValue v s = w)
    (h : derive4 w = derived) :
    exec (.seed v) s = .next (respond (setX (setSeed s derived.1) derived.2) .ok Quad.zero) := by
  rw [exec_seed, value, h]

theorem seedValue_of_ne_zero {v : Word} (h : v ≠ 0) : seedValue v s = v := if_pos h

theorem seedValue_zero : seedValue 0 s = s.pins.entropy := if_neg (by decide)

/-- Settles O40: but for SEED of 0 no command reads the entropy, and there the entropy is the seed value. -/
theorem entropyReadBySeedZeroAlone : Obligations.EntropyReadBySeedZeroAlone := by
  intro i s e
  constructor
  · intro notSeedZero t h
    have alike : ReadsAlike i s { s with pins := { s.pins with entropy := e } } :=
      ⟨rfl, rfl, fun seedZero => absurd seedZero notSeedZero⟩
    have answer := exec_readsAlike alike h
    obtain ⟨seed, x, st, res, rfl⟩ := exec_sameInterface h
    exact answer
  · intro nonzero t h
    obtain ⟨derived, hd⟩ : ∃ derived, derive4 e = derived := ⟨_, rfl⟩
    rw [exec_seed_of_derived (seedValue_of_ne_zero nonzero) hd] at h
    rw [exec_seed_of_derived (w := e) seedValue_zero hd]
    cases h
    rfl

end Sys2Proof.Proofs
end

section
/-! Repeated MIX reaches every seed value, and one SEED operand leaves SEED 0 (R35). -/

namespace Sys2Proof.Proofs

open Sys2Proof.Machine Sys2Proof.Claims

theorem run_succ_of_step {M : Host.Core} {s t : M.State} (h : M.step s = .next t) (k : Nat) :
    M.run (k + 1) s = M.run k t := by
  rw [Host.Core.run, h]

/-- The machine each step of which is one MIX. -/
def mixCore : Host.Core := { core with step := exec .mix }

/-- Unfolded by name: the equations of `mixTimes` itself make the kernel count up to the increment. -/
theorem mixTimes_eq_run : mixTimes = Host.Core.run mixCore := by
  delta mixTimes Host.Core.run
  rfl

/-- `k` MIX commands add `k` increments to SEED and leave X alone. -/
theorem mixTimes_next (k : Nat) (s : State) :
    ∃ t, mixTimes k s = .next t ∧ t.seed = s.seed + BitVec.ofNat 64 k * gamma ∧ t.x = s.x := by
  rw [mixTimes_eq_run]
  induction k generalizing s with
  | zero => exact ⟨s, rfl, by simp, rfl⟩
  | succ k ih =>
    obtain ⟨t, run, seed, x⟩ := ih (respond (setSeed s (mixStep s.seed).1) .ok (Quad.single (mixStep s.seed).2))
    refine ⟨t, (run_succ_of_step (M := mixCore) (exec_mix s) k).trans run, ?_, by rw [x, respond_x, setSeed_x]⟩
    rw [seed, respond_seed, setSeed_seed, mixStep_eq, BitVec.ofNat_add, BitVec.add_mul, BitVec.add_assoc,
      BitVec.add_comm gamma, BitVec.one_mul]

/-- The increment is odd, so it has an inverse modulo 2^64. -/
theorem gammaInverse_mul_gamma : 0xf1de83e19937733d#64 * gamma = 1#64 := by decide

/-- The operand that is four increments below 2^64. -/
theorem derive4_zeroing_seed : (derive4 0x8722191A02D60FAC#64).1 = 0 := by decide

theorem exec_seed_of_seedValue {s : State} {v w seed : Word} (value : seedValue v s = w) (h : (derive4 w).1 = seed) :
    ∃ t, exec (.seed v) s = .next t ∧ t.seed = seed := by
  subst h
  exact ⟨_, exec_seed_of_derived value rfl, by rw [respond_seed, setX_seed, setSeed_seed]⟩

/-- Settles O42: the number of MIX commands that reaches `v` is the distance to it times the inverse of the increment. -/
theorem mixReachesEverySeed : Obligations.MixReachesEverySeed := by
  refine ⟨fun s v => ?_, fun s => ?_, fun s entropy => ?_⟩
  · obtain ⟨t, run, seed, x⟩ := mixTimes_next ((v - s.seed) * 0xf1de83e19937733d#64).toNat s
    refine ⟨_, t, run, ?_, x⟩
    rw [seed, BitVec.ofNat_toNat, BitVec.setWidth_eq, BitVec.mul_assoc, gammaInverse_mul_gamma, BitVec.mul_one,
      BitVec.add_comm, BitVec.sub_add_cancel]
  · exact exec_seed_of_seedValue (seedValue_of_ne_zero (by decide)) derive4_zeroing_seed
  · exact exec_seed_of_seedValue (seedValue_zero.trans entropy) derive4_zeroing_seed

end Sys2Proof.Proofs
end

section
/-! The interface: what one edge does (R27), a command placed on the port, and the state after reset (R30-R33). -/

namespace Sys2Proof.Proofs

open Sys2Proof.Machine

variable {s t : State}

/-! ### The edge, by what is on the ports -/

theorem step_of_accept (rst : s.pins.rstN = true) (idle : s.outstanding = none) (valid : s.pins.cmdValid = true) :
    step s = acceptEdge s := by
  simp [step, clockEdge, rst, idle, valid]

theorem step_of_wait {n : Nat} (rst : s.pins.rstN = true) (waits : s.outstanding = some (n + 1)) :
    step s = .next (waitEdge s n) := by
  simp [step, clockEdge, rst, waits]

theorem step_of_taken (rst : s.pins.rstN = true) (held : s.outstanding = some 0) (ready : s.pins.rspReady = true) :
    step s = .next (takeEdge s) := by
  simp [step, clockEdge, rst, held, ready]

theorem step_of_held (rst : s.pins.rstN = true) (held : s.outstanding = some 0) (ready : s.pins.rspReady = false) :
    step s = .next (nextPins s) := by
  simp [step, clockEdge, rst, held, ready]

theorem runCommand_of_decode {i : Instr} (h : decode s.pins.command = .ok i) : runCommand s = exec i s := by
  rw [runCommand, h]

theorem acceptEdge_of_next (h : runCommand s = .next t) : acceptEdge s = .next (openResponse t) := by
  rw [acceptEdge, h]

/-! ### The ports, by what is outstanding -/

theorem cmdReady_of_outstanding {n : Nat} (h : s.outstanding = some n) : cmdReady s = false := by
  simp [cmdReady, h]

theorem cmdReady_of_idle (h : s.outstanding = none) : cmdReady s = s.pins.rstN := by
  simp [cmdReady, h]

theorem rspValid_of_idle (h : s.outstanding = none) : rspValid s = false := by
  simp [rspValid, h]

theorem accepted_of_not_cmdReady (h : cmdReady s = false) : accepted s = none := by
  simp [accepted, h]

theorem accepted_of_idle (rst : s.pins.rstN = true) (idle : s.outstanding = none) (valid : s.pins.cmdValid = true) :
    accepted s = some s.pins.command := by
  simp [accepted, cmdReady_of_idle idle, rst, valid]

/-- The response is taken when no edge is left to wait and `rsp_ready` is 1. -/
theorem taken_of_outstanding {n : Nat} (rst : s.pins.rstN = true) (h : s.outstanding = some n) :
    taken s = if n = 0 ∧ s.pins.rspReady = true then some (s.rspStatus, s.rspRes) else none := by
  cases n with
  | zero => simp [taken, rspValid, rspStatusPort, rspResPort, rst, h]
  | succ n => simp [taken, rspValid, h]

/-- Settles O53: an edge of the wait, a response held, and a response taken. -/
theorem oneCommandOutstanding : Obligations.OneCommandOutstanding := by
  intro s n rst outstanding
  have notReady := cmdReady_of_outstanding outstanding
  have takenIff := taken_of_outstanding rst outstanding
  refine ⟨notReady, accepted_of_not_cmdReady notReady, takenIff, ?_⟩
  rw [takenIff]
  cases n with
  | succ n =>
    exact ⟨_, step_of_wait rst outstanding, rfl, rfl, fun _ => ⟨rfl, rfl, rfl⟩, fun h => absurd (by simp) h⟩
  | zero =>
    cases ready : s.pins.rspReady with
    | false =>
      exact ⟨_, step_of_held rst outstanding ready, rfl, rfl, fun _ => ⟨outstanding, rfl, rfl⟩,
        fun h => absurd (by simp) h⟩
    | true => exact ⟨_, step_of_taken rst outstanding ready, rfl, rfl, fun h => absurd h (by simp), fun _ => rfl⟩

/-- Settles O50: the accepting edge runs the command on the port, which is `exec` of what it decodes to. -/
theorem stepRunsDecodedCommand : Obligations.StepRunsDecodedCommand := by
  intro s i rst idle valid decodes
  refine ⟨accepted_of_idle rst idle valid, ?_⟩
  rw [step_of_accept rst idle valid, acceptEdge, runCommand_of_decode decodes]
  cases exec i s <;> rfl

/-! ### A placed command word -/

/-- A word's bytes, read back, are the word. -/
theorem ofNat_ofLittleEndian {n w : Nat} (v : BitVec w) (fits : 2 ^ w = 256 ^ n) :
    BitVec.ofNat w (ofLittleEndian (littleEndian n v.toNat)) = v := by
  rw [ofLittleEndian_littleEndian, Nat.mod_eq_of_lt (fits ▸ v.isLt), BitVec.ofNat_toNat, BitVec.setWidth_eq]

/-- A command is read back from the head of its bytes (R58). -/
theorem commandOfBytes_bytesOfCommand_append (c : Command) (rest : List Byte) :
    commandOfBytes (bytesOfCommand c ++ rest) = some (c, rest) := by
  have long : ¬(bytesOfCommand c ++ rest).length < commandBytes := by
    simp only [bytesOfCommand, commandBytes, List.length_append, littleEndian_length]
    omega
  have cmd := ofNat_ofLittleEndian (n := 4) c.cmd (by norm_num)
  have opa := ofNat_ofLittleEndian (n := 8) c.opa (by norm_num)
  have opb := ofNat_ofLittleEndian (n := 8) c.opb (by norm_num)
  have opc := ofNat_ofLittleEndian (n := 8) c.opc (by norm_num)
  rw [commandOfBytes, if_neg long]
  simp [bytesOfCommand, commandBytes, List.drop_append, List.drop_eq_nil_of_le, littleEndian_length,
    cmd, opa, opb, opc]

theorem decode_of_decodeTableWord {nbits w : Nat} {i : Instr} (h : decodeTableWord nbits w = some i) :
    decode (commandOfNumber nbits w) = .ok i := by
  have whole := commandOfBytes_bytesOfCommand_append (commandOfNumber nbits w) []
  rw [List.append_nil] at whole
  rw [decodeTableWord, decodeBytes, whole] at h
  cases decoded : decode (commandOfNumber nbits w) with
  | ok j => simpa [decoded] using h
  | error e => simp [decoded] at h

/-- Settles O52: the placed word meets an idle interface, so the next edge accepts it. -/
theorem placedWordRuns : Obligations.PlacedWordRuns := by
  intro s nbits w i placed
  obtain ⟨u, hu⟩ := exec_completes i (s.withFetchWord nbits w)
  have run : runCommand (s.withFetchWord nbits w) = .next u :=
    (runCommand_of_decode (decode_of_decodeTableWord placed)).trans hu
  exact ⟨u, hu, (step_of_accept rfl rfl rfl).trans (acceptEdge_of_next run)⟩

/-! ### After reset -/

theorem resetSeed_ne_zero : Config.resetSeed ≠ 0 := by
  intro h
  have bound := Config.resetSeedLessOne.isLt
  have zero := congrArg BitVec.toNat h
  rw [Config.resetSeed, BitVec.toNat_ofNat, Nat.mod_eq_of_lt (by omega)] at zero
  exact absurd zero (Nat.succ_ne_zero _)

/-- Settles O49: status OK, zero results, nothing outstanding. -/
theorem resetResponseLegal : Obligations.ResetResponseLegal :=
  ⟨.inl rfl, fun notOk => absurd rfl notOk, fun _ => ⟨rfl, rfl⟩⟩

/-- Settles O57: with RESET_XBASE on the entropy port too, SEED derives X from it even when it is 0. -/
theorem resetState : Obligations.ResetState := by
  refine ⟨rfl, resetSeed_ne_zero, fun s => ?_, rfl, fun p => ?_⟩
  · have value : seedValue Config.resetXBase { s with pins := { s.pins with entropy := Config.resetXBase } } =
        Config.resetXBase := ite_self _
    exact ⟨_, exec_seed_of_derived value rfl, rfl⟩
  · have idle : ({ State.reset with pins := p } : State).outstanding = none := rfl
    have invalid := rspValid_of_idle idle
    refine ⟨cmdReady_of_idle idle, invalid, ?_, ?_⟩
    · rw [rspStatusPort, invalid]; rfl
    · rw [rspResPort, invalid]; rfl

end Sys2Proof.Proofs
end

section
/-! Instances share no state (R36). -/

namespace Sys2Proof.Proofs

open Sys2Proof.Machine

/-- A platform step that goes on: there is no block `k`, or it steps and the others stay. -/
theorem platformStep_next_iff {k : Nat} {p q : Platform} :
    platformStep k p = .next q ↔
      (p.blocks[k]? = none ∧ q = p) ∨
      ∃ s t, p.blocks[k]? = some s ∧ step s = .next t ∧ q = ⟨p.blocks.set k t⟩ := by
  unfold platformStep
  cases hs : p.blocks[k]? with
  | none => simp [eq_comm]
  | some s => cases ht : step s <;> simp [ht, eq_comm]

theorem platformStep_length {k : Nat} {p q : Platform} (h : platformStep k p = .next q) :
    q.blocks.length = p.blocks.length := by
  rcases platformStep_next_iff.mp h with ⟨-, rfl⟩ | ⟨s, t, -, -, rfl⟩
  · rfl
  · exact List.length_set

theorem platformStep_frame {i k : Nat} {p q : Platform} (other : i ≠ k) (h : platformStep k p = .next q) :
    q.blocks[i]? = p.blocks[i]? := by
  rcases platformStep_next_iff.mp h with ⟨-, rfl⟩ | ⟨s, t, -, -, rfl⟩
  · rfl
  · exact List.getElem?_set_ne other.symm

theorem platformStep_own {k : Nat} {p q : Platform} {s : State} (h : platformStep k p = .next q)
    (own : p.blocks[k]? = some s) : ∃ t, step s = .next t ∧ q.blocks[k]? = some t := by
  rcases platformStep_next_iff.mp h with ⟨absent, -⟩ | ⟨s', t, present, steps, rfl⟩
  · rw [absent] at own; cases own
  · obtain rfl : s' = s := Option.some.inj (present.symm.trans own)
    obtain ⟨inside, -⟩ := List.getElem?_eq_some_iff.mp own
    exact ⟨t, steps, List.getElem?_set_self inside⟩

/-- Steps of two instances give the same platform in either order. -/
theorem platformStep_comm {j k : Nat} {p q r : Platform} (distinct : j ≠ k) (hk : platformStep k p = .next q)
    (hj : platformStep j q = .next r) : ∃ q', platformStep j p = .next q' ∧ platformStep k q' = .next r := by
  have others := platformStep_frame distinct hk
  rcases platformStep_next_iff.mp hk with ⟨absent, rfl⟩ | ⟨s, t, present, steps, rfl⟩
  · have stillAbsent := (platformStep_frame distinct.symm hj).trans absent
    exact ⟨r, hj, platformStep_next_iff.mpr (.inl ⟨stillAbsent, rfl⟩)⟩
  · rcases platformStep_next_iff.mp hj with ⟨absent', rfl⟩ | ⟨s', t', present', steps', rfl⟩
    · exact ⟨p, platformStep_next_iff.mpr (.inl ⟨others.symm.trans absent', rfl⟩), hk⟩
    · have first : platformStep j p = .next ⟨p.blocks.set j t'⟩ :=
        platformStep_next_iff.mpr (.inr ⟨s', t', others.symm.trans present', steps', rfl⟩)
      have stillPresent := (platformStep_frame distinct.symm first).trans present
      refine ⟨_, first, platformStep_next_iff.mpr (.inr ⟨s, t, stillPresent, steps, ?_⟩)⟩
      rw [List.set_comm t t' distinct.symm]

/-- Settles O58: a step at `k` sets block `k` alone, from block `k` alone. -/
theorem instancesIsolated : Obligations.InstancesIsolated := fun _j _k _p _q hk =>
  ⟨platformStep_length hk, fun _ other => platformStep_frame other hk, fun _ => platformStep_own hk,
    fun distinct _ => platformStep_comm distinct hk⟩

end Sys2Proof.Proofs
end

section
/-! A command as bytes (R58), and the commands with no side effects (R60). -/

namespace Sys2Proof.Proofs

open Sys2Proof.Machine Sys2Proof.Claims

variable {s t : State} {i : Instr}

/-! ### A command written out as bytes (R58) -/

/-- A byte string that begins with a whole command decodes as that command does; the bytes after it are left over. -/
theorem decodeBytes_of_commandOfBytes {bs rest : List Byte} {c : Command} (h : commandOfBytes bs = some (c, rest)) :
    decodeBytes bs = (decode c).map (·, rest) := by
  simp only [decodeBytes, h]
  cases decode c <;> rfl

/-- Settles O29: the four words are read back, and the decoder looks at them alone. -/
theorem commandBytesRoundTrip : Obligations.CommandBytesRoundTrip := by
  intro c rest
  have whole := commandOfBytes_bytesOfCommand_append c rest
  refine ⟨whole, ?_⟩
  rw [decodeBytes_of_commandOfBytes whole]
  cases decode c <;> rfl

/-! ### The commands with no side effects (R60) -/

theorem completeMapped_eq_respond (s : State) (r : Except Status Word) :
    ∃ st res, completeMapped s r = .next (respond s st res) := by
  rcases completeMapped_next (s := s) r with ⟨w, -, h⟩ | ⟨st, -, h⟩
  · exact ⟨_, _, h⟩
  · exact ⟨_, _, h⟩

/-- A command with no side effects writes its response and nothing else. -/
theorem exec_of_readOnly (s : State) : ∀ {i : Instr}, readOnly i = true → ∃ st res, exec i s = .next (respond s st res)
  | .rdseed, _ => ⟨_, _, exec_rdseed s⟩
  | .rdx, _ => ⟨_, _, exec_rdx s⟩
  | .mixp w, _ => ⟨_, _, exec_mixp s w⟩
  | .mapu raw lo hi, _ => completeMapped_eq_respond s (mapU raw lo hi)
  | .mapi raw lo hi, _ => completeMapped_eq_respond s (mapI raw lo hi)
  | .mapf raw lo hi, _ => completeMapped_eq_respond s (mapF raw lo hi)

theorem exec_readOnly_keeps (ro : readOnly i = true) (h : exec i s = .next t) : t.seed = s.seed ∧ t.x = s.x := by
  obtain ⟨st, res, answer⟩ := exec_of_readOnly s ro
  rw [answer] at h
  cases h
  exact ⟨respond_seed s st res, respond_x s st res⟩

theorem ne_seed_of_readOnly (ro : readOnly i = true) (v : Word) : i ≠ .seed v := by
  rintro rfl
  exact absurd ro Bool.false_ne_true

/-- Settles O38: the state left agrees with the state before in all the command reads, so it gets the same answer. -/
theorem readOnlyCommandsIdempotent : Obligations.ReadOnlyCommandsIdempotent := by
  intro i s t ro h
  obtain ⟨seed, x⟩ := exec_readOnly_keeps ro h
  have alike : ReadsAlike i s t := ⟨seed, x, fun isSeed => absurd isSeed (ne_seed_of_readOnly ro 0)⟩
  exact ⟨seed, x, exec_readsAlike alike h⟩

end Sys2Proof.Proofs
end

section
/-! What the decoder answers: the instruction an opcode selects (R71, R76), the three checks (R77), and the encoding it
undoes (R78). -/

namespace Sys2Proof.Proofs

open Sys2Proof.Machine Sys2Proof.Claims

variable {c d : Command} {i : Instr}

/-! ### What an opcode selects -/

/-- The instruction `i` with every operand read anew from the fields and words of R71 in the command `c`. -/
def withOperandsOf (c : Command) : Instr → Instr
  | .seed _ => .seed c.opa
  | .mixp _ => .mixp c.opa
  | .xbits _ => .xbits (nbField c.cmd).toNat
  | .mapu _ _ _ => .mapu c.opc c.opa c.opb
  | .mapi _ _ _ => .mapi c.opc c.opa c.opb
  | .mapf _ _ _ => .mapf c.opc c.opa c.opb
  | .rngu _ _ => .rngu c.opa c.opb
  | .rngi _ _ => .rngi c.opa c.opb
  | .rngfs _ _ => .rngfs c.opa c.opb
  | .rngfx _ _ => .rngfx c.opa c.opb
  | i => i

theorem opcode_mem_opcodes (i : Instr) : (opcode i).toNat ∈ opcodes := by
  cases i <;> simp [opcode, opcodes]

/-- An opcode of R76 selects its instruction with the operands of the command, and another opcode selects nothing. -/
theorem instrOfOpcode_some_or_none (c : Command) :
    (∃ i, instrOfOpcode c = some i ∧ opField c.cmd = opcode i ∧ withOperandsOf c i = i) ∨
      (instrOfOpcode c = none ∧ c.cmd.toNat % 256 ∉ opcodes) := by
  rcases instrOfOpcode_cases c with
    ⟨op, h⟩ | ⟨op, h⟩ | ⟨op, h⟩ | ⟨op, h⟩ | ⟨op, h⟩ | ⟨op, h⟩ | ⟨op, h⟩ | ⟨op, h⟩ | ⟨op, h⟩ | ⟨op, h⟩ | ⟨op, h⟩ |
    ⟨op, h⟩ | ⟨op, h⟩ | ⟨op, h⟩ | ⟨op, h⟩ | ⟨op, h⟩ | ⟨op, h⟩ | ⟨unlisted, h⟩
  pick_goal 18
  · rw [← opField_toNat]
    exact .inr ⟨h, fun mem => unlisted _ (by simpa [opcodes, BitVec.toNat_eq] using mem) rfl⟩
  all_goals exact .inl ⟨_, h, op, rfl⟩

/-- An opcode of R76 selects the instruction that has it, with the operands of the command. -/
theorem instrOfOpcode_eq_some_iff :
    instrOfOpcode c = some i ↔ opField c.cmd = opcode i ∧ withOperandsOf c i = i := by
  constructor
  · intro selects
    rcases instrOfOpcode_some_or_none c with ⟨j, h, fields⟩ | ⟨h, -⟩
    · obtain rfl : j = i := Option.some.inj (h.symm.trans selects)
      exact fields
    · rw [h] at selects; cases selects
  · rintro ⟨op, operands⟩
    rw [← operands]
    cases i <;> simp [instrOfOpcode, op, opcode, withOperandsOf]

theorem instrOfOpcode_eq_none (h : c.cmd.toNat % 256 ∉ opcodes) : instrOfOpcode c = none := by
  rcases instrOfOpcode_some_or_none c with ⟨i, -, op, -⟩ | ⟨none, -⟩
  · rw [← opField_toNat, op] at h
    exact absurd (opcode_mem_opcodes i) h
  · exact none

theorem exists_instrOfOpcode (h : c.cmd.toNat % 256 ∈ opcodes) : ∃ i, instrOfOpcode c = some i := by
  rcases instrOfOpcode_some_or_none c with ⟨i, selects, -⟩ | ⟨-, unlisted⟩
  · exact ⟨i, selects⟩
  · exact absurd h unlisted

/-! ### The checks of R77 -/

theorem decode_of_unassigned (h : c.cmd.toNat % 256 ∉ opcodes) : decode c = .error .unassignedOpcode := by
  rw [decode, instrOfOpcode_eq_none h]

/-- With an assigned opcode, the two checks left, `RSV` before `NB`, on numbers. -/
theorem decode_of_assigned (h : c.cmd.toNat % 256 ∈ opcodes) :
    ∃ i, decode c =
      if c.cmd.toNat / 32768 ≠ 0 then .error .reservedBits
      else if c.cmd.toNat / 256 % 128 ≠ 0 ∧ c.cmd.toNat % 256 ≠ 0x32 then .error .bitCountNotZero
      else .ok i := by
  obtain ⟨i, selects⟩ := exists_instrOfOpcode h
  refine ⟨i, ?_⟩
  simp [decode, selects, BitVec.toNat_eq, rsvField_toNat, nbField_toNat, opField_toNat]

theorem runCommand_of_illegal {s : State} {e : Illegal} (h : decode s.pins.command = .error e) :
    runCommand s = .next (respond s .illegal Quad.zero) := by
  rw [runCommand, h]; rfl

/-- Settles O25: the opcode is looked up first, then `RSV` and `NB` are checked; what fails answers ILLEGAL. -/
theorem decodeLegality : Obligations.DecodeLegality := by
  intro c
  refine ⟨decode_of_unassigned, fun assigned rsv => ?_, fun assigned rsv nb op => ?_, fun assigned rsv legal => ?_,
    fun e s illegal onPort => ?_⟩
  · obtain ⟨i, checks⟩ := decode_of_assigned assigned
    rw [checks, if_pos rsv]
  · obtain ⟨i, checks⟩ := decode_of_assigned assigned
    rw [checks, if_neg (not_not.mpr rsv), if_pos ⟨nb, op⟩]
  · obtain ⟨i, checks⟩ := decode_of_assigned assigned
    refine ⟨i, ?_⟩
    rw [checks, if_neg (not_not.mpr rsv), if_neg fun ⟨nb, op⟩ => legal.elim nb op]
  · rw [runCommand_of_illegal (onPort ▸ illegal), respond_illegal]

/-- Settles O51: the accepting edge runs the command on the port, which is answered ILLEGAL. -/
theorem stepAnswersIllegal : Obligations.StepAnswersIllegal := by
  intro s e rst idle valid illegal
  rw [step_of_accept rst idle valid, acceptEdge_of_next (runCommand_of_illegal illegal)]
  rfl

/-! ### Decoding and encoding (R78) -/

theorem bitCount_withOperandsOf (c : Command) :
    ∀ i, bitCount (withOperandsOf c i) = if opcode i = 0x32#8 then nbField c.cmd else 0#7
  | .xbits _ => by simp [withOperandsOf, bitCount, opcode]
  | .rdseed | .rdx | .seed _ | .mix | .mixp _ | .xsf | .xu64 | .xi64 | .xf | .mapu _ _ _ | .mapi _ _ _ | .rngu _ _
  | .rngi _ _ | .mapf _ _ _ | .rngfs _ _ | .rngfx _ _ => rfl

theorem wellFormed_withOperandsOf (c : Command) : ∀ i, (withOperandsOf c i).wellFormed = true
  | .xbits _ => decide_eq_true (Nat.le_of_lt_succ (nbField c.cmd).isLt)
  | .rdseed | .rdx | .seed _ | .mix | .mixp _ | .xsf | .xu64 | .xi64 | .xf | .mapu _ _ _ | .mapi _ _ _ | .rngu _ _
  | .rngi _ _ | .mapf _ _ _ | .rngfs _ _ | .rngfx _ _ => rfl

/-- A well-formed instruction's operands are those of its encoding; b of XBITS fits the field `NB`. -/
theorem withOperandsOf_encode : ∀ {i}, i.wellFormed = true → withOperandsOf (encode i) i = i
  | .xbits b, wf => by
    have fits : b < 2 ^ 7 := Nat.lt_succ_of_le (of_decide_eq_true wf)
    have nb : nbField (encode (.xbits b)).cmd = BitVec.ofNat 7 b := nbField_f1Word _ _
    rw [withOperandsOf, nb, BitVec.toNat_ofNat, Nat.mod_eq_of_lt fits]
  | .rdseed, _ | .rdx, _ | .seed _, _ | .mix, _ | .mixp _, _ | .xsf, _ | .xu64, _ | .xi64, _ | .xf, _
  | .mapu _ _ _, _ | .mapi _ _ _, _ | .rngu _ _, _ | .rngi _ _, _ | .mapf _ _ _, _ | .rngfs _ _, _
  | .rngfx _ _, _ => rfl

/-- Settles O26: the encoding passes the checks, and its opcode selects `i` with the operands of `i`. -/
theorem decodeOfEncode : Obligations.DecodeOfEncode := by
  intro i wf
  have op : opField (encode i).cmd = opcode i := opField_f1Word _ _
  have nb : nbField (encode i).cmd = bitCount i := nbField_f1Word _ _
  have operands := withOperandsOf_encode wf
  refine (decode_ok_iff _ _).mpr ⟨instrOfOpcode_eq_some_iff.mpr ⟨op, operands⟩, rsvField_f1Word _ _, ?_⟩
  rw [op, nb]
  by_cases xbits : opcode i = 0x32#8
  · exact .inr xbits
  · rw [← operands, bitCount_withOperandsOf, if_neg xbits]
    exact .inl rfl

/-- A command word with `RSV` 0 is put together from its other two fields. -/
theorem f1Word_fields {w : CmdWord} (rsv : rsvField w = 0#17) : 0#17 ++ nbField w ++ opField w = w := by
  have rsvNat : w.toNat / 32768 = 0 := by rw [← rsvField_toNat, rsv]; rfl
  apply BitVec.eq_of_toNat_eq
  rw [f1Word_toNat, nbField_toNat, opField_toNat]
  omega

/-- Settles O27: each field of the word is the one the encoding of the instruction has. -/
theorem legalWordUnique : Obligations.LegalWordUnique := by
  intro c i decodes
  obtain ⟨selects, rsv, nbZeroOrXbits⟩ := (decode_ok_iff c i).mp decodes
  obtain ⟨op, operands⟩ := instrOfOpcode_eq_some_iff.mp selects
  have nb : bitCount i = nbField c.cmd := by
    rw [← operands, bitCount_withOperandsOf, ← op]
    split
    · rfl
    next notXbits => exact (nbZeroOrXbits.resolve_right notXbits).symm
  constructor
  · rw [← operands]
    exact wellFormed_withOperandsOf c i
  · calc (encode i).cmd = 0#17 ++ bitCount i ++ opcode i := rfl
      _ = 0#17 ++ nbField c.cmd ++ opField c.cmd := by rw [nb, op]
      _ = c.cmd := f1Word_fields rsv

/-! ### Operand words that are not read (R71) -/

/-- Only the operand words that R71 names for the instruction are read. -/
theorem withOperandsOf_congr (word : c.cmd = d.cmd)
    (opa : (opcode i).toNat ∈ [0x10, 0x12, 0x40, 0x41, 0x48, 0x49, 0x50, 0x58, 0x59] → c.opa = d.opa)
    (opb : (opcode i).toNat ∈ [0x40, 0x41, 0x48, 0x49, 0x50, 0x58, 0x59] → c.opb = d.opb)
    (opc : (opcode i).toNat ∈ [0x40, 0x41, 0x50] → c.opc = d.opc) :
    withOperandsOf c i = withOperandsOf d i := by
  cases i with
  | seed _ | mixp _ => simp [withOperandsOf, opa (by simp [opcode])]
  | xbits _ => simp [withOperandsOf, word]
  | mapu _ _ _ | mapi _ _ _ | mapf _ _ _ =>
    simp [withOperandsOf, opa (by simp [opcode]), opb (by simp [opcode]), opc (by simp [opcode])]
  | rngu _ _ | rngi _ _ | rngfs _ _ | rngfx _ _ =>
    simp [withOperandsOf, opa (by simp [opcode]), opb (by simp [opcode])]
  | rdseed | rdx | mix | xsf | xu64 | xi64 | xf => rfl

/-- Settles O28: the two commands select one instruction, and their words pass the same checks. -/
theorem unusedOperandsIgnored : Obligations.UnusedOperandsIgnored := by
  intro c d word opa opb opc
  have selected : instrOfOpcode c = instrOfOpcode d := by
    ext i
    rw [instrOfOpcode_eq_some_iff, instrOfOpcode_eq_some_iff, ← word]
    refine and_congr_right fun op => ?_
    rw [← opField_toNat, op] at opa opb opc
    rw [withOperandsOf_congr word opa opb opc]
  rw [decode, decode, selected, word]

/-! ### Words written out -/

/-- Settles O30: the six words run through the byte decoder. -/
theorem sampleWordsDecode : Obligations.SampleWordsDecode := by
  unfold Obligations.SampleWordsDecode
  decide

theorem encode_xbits {b : Nat} (fits : b ≤ 127) :
    encode (.xbits b) = ⟨BitVec.ofNat 32 (b * 256 + 0x32), 0, 0, 0⟩ := by
  have word : 0#17 ++ BitVec.ofNat 7 b ++ 0x32#8 = BitVec.ofNat 32 (b * 256 + 0x32) := by
    apply BitVec.eq_of_toNat_eq
    rw [f1Word_toNat]
    simp only [BitVec.toNat_ofNat]
    omega
  exact congrArg (Command.mk · 0 0 0) word

theorem encode_seed (v : Word) : encode (.seed v) = ⟨0x10#32, v, 0, 0⟩ :=
  congrArg (Command.mk · v 0 0) (by decide : 0#17 ++ 0#7 ++ 0x10#8 = 0x10#32)

/-- Settles O31: the expansion of each pseudo-instruction, encoded. -/
theorem pseudoInstructionWords : Obligations.PseudoInstructionWords :=
  ⟨encode_xbits (by decide), encode_xbits (by decide), encode_xbits (by decide), encode_seed 0, rfl, rfl, rfl,
    fun _ => encode_xbits, encode_seed⟩

end Sys2Proof.Proofs
end

section
/-! A command word with any operand words (R78, R71), and the two commands that read the state (R100, R101). -/

namespace Sys2Proof.Proofs

open Sys2Proof.Machine

variable {c : Command} {i : Instr}

/-- A command decodes to `i` when its word is the one `i` encodes to and its operand words hold what `i` reads of them; the
operand words `i` does not read may hold anything. -/
theorem decode_of_encoded_word (word : c.cmd = (encode i).cmd) (operands : withOperandsOf c i = i) :
    decode c = .ok i := by
  have wf : i.wellFormed = true := by
    rw [← operands]
    exact wellFormed_withOperandsOf c i
  obtain ⟨selects, rsv, nb⟩ := (decode_ok_iff (encode i) i).mp (decodeOfEncode i wf)
  obtain ⟨op, -⟩ := instrOfOpcode_eq_some_iff.mp selects
  rw [← word] at op rsv nb
  exact (decode_ok_iff c i).mpr ⟨instrOfOpcode_eq_some_iff.mpr ⟨op, operands⟩, rsv, nb⟩

/-- Settles O1: RDSEED reads no operand word, and its answer is the seed register and nothing written but the response. -/
theorem readSeedCommand : Obligations.ReadSeedCommand := by
  intro a b c s
  refine ⟨decode_of_encoded_word rfl rfl, ?_⟩
  rw [exec_rdseed, respond_ok, Quad.single]

/-- Settles O2: RDX reads no operand word, and its answer is X as one value of the state it finds. -/
theorem readMultiWordCommand : Obligations.ReadMultiWordCommand := by
  intro a b c s
  refine ⟨decode_of_encoded_word rfl rfl, ?_⟩
  rw [exec_rdx, respond_ok]

end Sys2Proof.Proofs
end

section
/-! The seed mixer on numbers (R110): the mixer on words is the finaliser of the claims, and the words derived from one
seed value stand at multiples of the increment. From these, the commands SEED, MIX and MIXP (R111, R112, R113). -/

namespace Sys2Proof.Proofs

open Sys2Proof.Machine Sys2Proof.Claims

/-! ### The finaliser -/

theorem xorShiftRight_toNat (z : Word) (k : Nat) : (z ^^^ z >>> k).toNat = z.toNat ^^^ shr z.toNat k := by
  rw [BitVec.toNat_xor, BitVec.toNat_ushiftRight, Nat.shiftRight_eq_div_pow, shr]

theorem mixFin_toNat (z : Word) : (mixFin z).toNat = finaliser z.toNat := by
  rw [mixFin, xorShiftRight_toNat, BitVec.toNat_mul, xorShiftRight_toNat, BitVec.toNat_mul, xorShiftRight_toNat]
  rfl

theorem mixFin_bijective : Function.Bijective mixFin :=
  have : Finite Word := .of_equiv _ BitVec.equivFin.symm.toEquiv
  Finite.injective_iff_bijective.mp mixFin_injective

/-! ### The words derived from one seed value -/

/-- The output of the `i`-th mixer call in sequence from the seed value `v`. -/
def derivedWord (v i : Word) : Word := mixFin (v + i * gamma)

theorem derivedWord_one (v : Word) : derivedWord v 1#64 = mixFin (v + gamma) := by
  rw [derivedWord, BitVec.one_mul]

theorem add_mul_gamma_add_gamma (v i : Word) : v + i * gamma + gamma = v + (i + 1#64) * gamma := by
  rw [BitVec.add_mul, BitVec.one_mul, BitVec.add_assoc]

theorem derive4_eq_derivedWord (v : Word) :
    derive4 v =
      (v + 4#64 * gamma, ⟨derivedWord v 1#64, derivedWord v 2#64, derivedWord v 3#64, derivedWord v 4#64⟩) := by
  have first : v + gamma = v + 1#64 * gamma := by rw [BitVec.one_mul]
  simp only [derive4_eq, first, add_mul_gamma_add_gamma, BitVec.reduceAdd, derivedWord]

theorem derivedWord_toNat (v i : Word) :
    (derivedWord v i).toNat = finaliser ((v.toNat + i.toNat * gammaNat) % 2 ^ 64) := by
  rw [derivedWord, mixFin_toNat, BitVec.toNat_add, BitVec.toNat_mul, Nat.add_mod_mod]
  rfl

theorem mixFin_add_gamma_toNat (v : Word) :
    (mixFin (v + gamma)).toNat = finaliser ((v.toNat + gammaNat) % 2 ^ 64) := by
  rw [mixFin_toNat, BitVec.toNat_add]
  rfl

/-- The increment has an inverse modulo 2^64, so different calls stand at different seeds. -/
theorem derivedWord_injective (v : Word) : Function.Injective (derivedWord v) := by
  intro i j h
  have inverse : gamma * 0xf1de83e19937733d#64 = 1#64 := (BitVec.mul_comm _ _).trans gammaInverse_mul_gamma
  exact mul_injective_of_inverse inverse ((BitVec.add_right_inj v).mp (mixFin_injective h))

/-- Settles O43: each stage of the finaliser loses nothing, and the four words are derived at four different seeds. -/
theorem finaliserBijective : Obligations.FinaliserBijective := by
  refine ⟨mixFin_bijective, fun v => ?_⟩
  have calls : [1#64, 2#64, 3#64, 4#64].Nodup := by decide
  rw [derive4_eq_derivedWord]
  exact calls.map (derivedWord_injective v)

/-! ### The commands -/

theorem seedValue_eq_ite (v : Word) (s : State) : seedValue v s = if v = 0 then s.pins.entropy else v :=
  ite_not ..

theorem encode_mixp (w : Word) : encode (.mixp w) = ⟨0x12#32, w, 0, 0⟩ :=
  congrArg (Command.mk · w 0 0) (by decide : 0#17 ++ 0#7 ++ 0x12#8 = 0x12#32)

/-- Settles O3: the registers are `derive4` of the seed value, whose parts are words at multiples of the increment. -/
theorem seedCommand : Obligations.SeedCommand := by
  intro v b c s
  rw [← seedValue_eq_ite]
  have word : 0x10#32 = (encode (.seed v)).cmd := (congrArg Command.cmd (encode_seed v)).symm
  refine ⟨decode_of_encoded_word word rfl,
    ⟨derivedWord (seedValue v s) 1#64, derivedWord (seedValue v s) 2#64, derivedWord (seedValue v s) 3#64,
      derivedWord (seedValue v s) 4#64⟩,
    ?_, ?_, derivedWord_toNat _ 2#64, derivedWord_toNat _ 3#64, derivedWord_toNat _ 4#64⟩
  · rw [exec_seed_of_derived rfl (derive4_eq_derivedWord _), respond_ok_setX_setSeed,
      (by decide : 4#64 * gamma = 0x78DDE6E5FD29F054#64), Quad.zero]
  · rw [derivedWord_one, mixFin_add_gamma_toNat]

/-- Settles O4: MIX is one mixer call on SEED. -/
theorem mixCommand : Obligations.MixCommand := by
  intro a b c s
  refine ⟨decode_of_encoded_word rfl rfl, _, ?_, mixFin_add_gamma_toNat s.seed⟩
  rw [exec_mix, mixStep_eq, respond_ok_setSeed, Quad.single, gamma]

/-- Settles O5: MIXP is one mixer call on its operand, and writes nothing but the response. -/
theorem pureMixCommand : Obligations.PureMixCommand := by
  intro w b c s
  have word : 0x12#32 = (encode (.mixp w)).cmd := (congrArg Command.cmd (encode_mixp w)).symm
  refine ⟨decode_of_encoded_word word rfl, _, ?_, mixFin_add_gamma_toNat w⟩
  rw [exec_mixp, mixStep_eq, respond_ok, gamma]

end Sys2Proof.Proofs
end

section
/-! The xorshift scalar generator (R130): its step on words is the one of the claims on numbers and loses nothing, and its
output is an exact fraction. From these, the command XSF (R131). -/

namespace Sys2Proof.Proofs

open Sys2Proof.Machine Sys2Proof.Claims

/-! ### The step -/

theorem xorShiftLeft_toNat (z : Word) (k : Nat) : (z ^^^ z <<< k).toNat = z.toNat ^^^ shl z.toNat k := by
  rw [BitVec.toNat_xor, BitVec.toNat_shiftLeft, Nat.shiftLeft_eq, shl]

theorem xsStep_toNat (s : Word) : (xsStep s).toNat = xorshift s.toNat := by
  rw [xsStep, xorShiftLeft_toNat, xorShiftRight_toNat, xorShiftLeft_toNat, xorshift]

theorem xsStep_injective : Function.Injective xsStep := by
  intro y z h
  refine xorShiftLeft_injective (k := 13) (by decide) ?_
  refine xorShiftRight_injective (k := 7) (by decide) ?_
  exact xorShiftLeft_injective (k := 17) (by decide) h

theorem xsStep_bijective : Function.Bijective xsStep :=
  have : Finite Word := .of_equiv _ BitVec.equivFin.symm.toEquiv
  Finite.injective_iff_bijective.mp xsStep_injective

theorem xsStep_zero : xsStep 0 = 0 := by decide

/-- Settles O44: each of the three shifts loses nothing, so 0, which steps to itself, is stepped to from nowhere else. -/
theorem xorshiftBijective : Obligations.XorshiftBijective :=
  ⟨xsStep_bijective, xsStep_zero, fun _ h => xsStep_injective (h.trans xsStep_zero.symm)⟩

/-! ### The output and the command -/

/-- The fraction of the top 53 bits of a word is exact (R10). -/
theorem isFraction53_top53 (v : Word) : isFraction53 (u53ToF64 (v >>> 11).toNat) (v.toNat / 2 ^ 11) := by
  have exact53 := (fractionFloatExact _ (toNat_top53_lt v)).1
  rwa [BitVec.toNat_ushiftRight, Nat.shiftRight_eq_div_pow] at exact53 ⊢

/-- Settles O6: XSF writes the stepped seed and answers with the fraction of its top 53 bits. -/
theorem scalarFloatCommand : Obligations.ScalarFloatCommand := by
  intro a b c s
  refine ⟨decode_of_encoded_word rfl rfl, xsStep s.seed, xsFloat (xsStep s.seed), ?_, xsStep_toNat s.seed,
    isFraction53_top53 _⟩
  rw [exec_xsf, respond_ok_setSeed, Quad.single]

end Sys2Proof.Proofs
end

section
/-! The xoshiro multi-word generator (R140): its integer output on words is the one of the claims on numbers, its float
output is an exact fraction, and its advance has the closed form of R141 and loses nothing. From these, the commands XU64,
XI64, XBITS and XF (R143 to R147). -/

namespace Sys2Proof.Proofs

open Sys2Proof.Machine Sys2Proof.Claims

/-! ### The advance -/

theorem shiftLeft_toNat (z : Word) (k : Nat) : (z <<< k).toNat = shl z.toNat k := by
  rw [BitVec.toNat_shiftLeft, Nat.shiftLeft_eq, shl]

theorem rotl64_toNat (a : Word) (k : Nat) : (rotl64 a k).toNat = rotl a.toNat k := by
  rw [rotl64, BitVec.toNat_or, shiftLeft_toNat, BitVec.toNat_ushiftRight, Nat.shiftRight_eq_div_pow, rotl, shr]

/-- The six assignments in order come to the closed form of R141. -/
theorem xoAdvance_eq_advanced (x : Quad) : xoAdvance x = advanced x := by
  rw [xoAdvance, advanced, ← shiftLeft_toNat, ← rotl64_toNat, BitVec.ofNat_toNat, BitVec.ofNat_toNat,
    BitVec.setWidth_eq, BitVec.setWidth_eq]
  simp only [Quad.mk.injEq, and_true]
  exact ⟨(BitVec.xor_assoc ..).symm, (BitVec.xor_assoc ..).symm⟩

theorem finite_quad : Finite Quad :=
  have : Finite Word := .of_equiv _ BitVec.equivFin.symm.toEquiv
  .of_injective (fun x : Quad => (x.x0, x.x1, x.x2, x.x3)) fun ⟨_, _, _, _⟩ ⟨_, _, _, _⟩ same => by simpa using same

/-- Settles O45: the advance loses nothing on a finite set of states, so the all-zero state, which advances to itself, is
advanced to from nowhere else. -/
theorem advanceBijective : Obligations.AdvanceBijective :=
  have := finite_quad
  ⟨Finite.injective_iff_bijective.mp xoAdvance_injective, xoAdvance_zero,
    fun _ h => xoAdvance_injective (h.trans xoAdvance_zero.symm)⟩

/-! ### The outputs -/

theorem xoOutU64_toNat (x : Quad) : (xoOutU64 x).toNat = integerOutput x.x1.toNat := by
  rw [xoOutU64, BitVec.toNat_mul, rotl64_toNat, BitVec.toNat_mul]
  rfl

theorem topBits_eq_shiftRight (r : Word) (b : Nat) : topBits r b = r >>> (64 - b) := by
  rw [topBits]
  split
  next all => rw [all, Nat.sub_self, BitVec.ushiftRight_zero]
  · rfl

theorem topBits_toNat (r : Word) (b : Nat) : (topBits r b).toNat = r.toNat / 2 ^ (64 - b) := by
  rw [topBits_eq_shiftRight, BitVec.toNat_ushiftRight, Nat.shiftRight_eq_div_pow]

/-- The bits above the lowest `b` are 0 (R145). -/
theorem topBits_toNat_lt (r : Word) {b : Nat} (h : b ≤ 64) : (topBits r b).toNat < 2 ^ b := by
  rw [topBits_toNat, Nat.div_lt_iff_lt_mul (by positivity), ← pow_add, Nat.add_sub_cancel' h]
  exact r.isLt

theorem xoOutF64_isFraction53 (x : Quad) :
    isFraction53 (xoOutF64 x) ((x.x0.toNat + x.x3.toNat) % 2 ^ 64 / 2 ^ 11) := by
  rw [xoOutF64, ← BitVec.toNat_add]
  exact isFraction53_top53 _

/-! ### The commands -/

/-- The response to a draw: one result word, and X advanced once (R142). -/
theorem respond_draw (s : State) (r : Word) :
    respond (setX s (xoAdvance s.x)) .ok (Quad.single r) =
      { s with x := advanced s.x, rspStatus := 0#3, rspRes := ⟨r, 0, 0, 0⟩ } := by
  rw [respond_ok_setX, xoAdvance_eq_advanced, Quad.single]

theorem bitCountOk_iff {b : Nat} : bitCountOk b = true ↔ 1 ≤ b ∧ b ≤ 64 := by
  rw [bitCountOk, Bool.and_eq_true, decide_eq_true_iff, decide_eq_true_iff]

/-- Settles O7: both commands are one draw of the integer output. -/
theorem multiWordIntegerCommands : Obligations.MultiWordIntegerCommands := by
  intro a b c s
  refine ⟨decode_of_encoded_word rfl rfl, decode_of_encoded_word rfl rfl, xoOutU64 s.x, ?_, ?_, xoOutU64_toNat s.x⟩
  · rw [exec_xu64, respond_draw]
  · rw [exec_xi64, respond_draw]

/-- The word of XBITS decodes whatever its field `NB` holds (R72). -/
theorem decode_xbits (nb : BitVec 7) (a b c : Word) :
    decode ⟨0#17 ++ nb ++ 0x32#8, a, b, c⟩ = .ok (.xbits nb.toNat) := by
  have count : bitCount (.xbits nb.toNat) = nb := (BitVec.ofNat_toNat ..).trans (BitVec.setWidth_eq nb)
  apply decode_of_encoded_word
  · rw [encode, count, opcode]
  · rw [withOperandsOf, nbField_f1Word]

/-- Settles O8: with a bit count in 1..64 XBITS is a draw of the top bits, with any other it is rejected before the draw. -/
theorem bitsCommand : Obligations.BitsCommand := by
  refine ⟨decode_xbits, fun b s lower upper => ?_, fun b s outside => ?_⟩
  · refine ⟨topBits (xoOutU64 s.x) b, ?_, ?_, topBits_toNat_lt _ upper⟩
    · rw [exec_xbits, if_pos (bitCountOk_iff.mpr ⟨lower, upper⟩), respond_draw]
    · rw [topBits_toNat, xoOutU64_toNat]
  · have rejected : ¬bitCountOk b = true := fun ok => by
      obtain ⟨lower, upper⟩ := bitCountOk_iff.mp ok
      omega
    rw [exec_xbits, if_neg rejected, respond_other]

/-- Settles O9: XF is a draw of the float output. -/
theorem multiWordFloatCommand : Obligations.MultiWordFloatCommand := by
  intro a b c s
  refine ⟨decode_of_encoded_word rfl rfl, xoOutF64 s.x, ?_, xoOutF64_isFraction53 s.x⟩
  rw [exec_xf, respond_draw]

end Sys2Proof.Proofs
end

section
/-! The integer range mapper (R161, R162): the bounds it accepts, the exact value it maps to, and that this value lies
between the bounds. From these, the commands MAPU, MAPI, RNGU and RNGI (R163 to R166) and their containment (R169). -/

namespace Sys2Proof.Proofs

open Sys2Proof.Machine Sys2Proof.Claims

variable {s t : State} {lo hi w : Word}

/-! ### Unsigned bounds (R161) -/

theorem rangeOkU_iff : rangeOkU lo hi = true ↔ lo.toNat ≤ hi.toNat ∧ hi.toNat - lo.toNat < 2 ^ 64 - 1 := by
  have := hi.isLt
  rw [rangeOkU, Bool.and_eq_true, decide_eq_true_iff, decide_eq_true_iff]
  omega

/-- The check refuses inverted bounds and the full range. -/
theorem rangeOkU_eq_false_iff :
    rangeOkU lo hi = false ↔ hi.toNat < lo.toNat ∨ (lo.toNat = 0 ∧ hi.toNat = 2 ^ 64 - 1) := by
  have := hi.isLt
  rw [← Bool.not_eq_true, rangeOkU_iff]
  omega

theorem mod_span_add_le (raw : Nat) (ordered : lo.toNat ≤ hi.toNat) :
    raw % (hi.toNat - lo.toNat + 1) + lo.toNat ≤ hi.toNat := by
  have below : raw % (hi.toNat - lo.toNat + 1) < hi.toNat - lo.toNat + 1 := Nat.mod_lt _ (Nat.succ_pos _)
  omega

/-- Narrowing to 64 bits loses nothing: the mapped value is at most `hi`. -/
theorem mapU_of_accepted (raw : Word) (ok : rangeOkU lo hi = true) :
    ∃ w, mapU raw lo hi = .ok w ∧ w.toNat = raw.toNat % (hi.toNat - lo.toNat + 1) + lo.toNat := by
  have atMost := mod_span_add_le raw.toNat (rangeOkU_iff.mp ok).1
  refine ⟨_, mapU_of_ok raw ok, ?_⟩
  rw [BitVec.toNat_ofNat, Nat.mod_eq_of_lt (atMost.trans_lt hi.isLt)]

theorem mapU_of_rejected (raw : Word) (rejected : rangeOkU lo hi = false) : mapU raw lo hi = .error .range := by
  rw [mapU, rejected, if_neg Bool.false_ne_true]

theorem mapU_bounds {raw : Word} (h : mapU raw lo hi = .ok w) : lo.toNat ≤ w.toNat ∧ w.toNat ≤ hi.toNat := by
  cases check : rangeOkU lo hi with
  | false => cases (mapU_of_rejected raw check).symm.trans h
  | true =>
    obtain ⟨v, mapped, value⟩ := mapU_of_accepted raw check
    cases mapped.symm.trans h
    rw [value]
    exact ⟨Nat.le_add_left .., mod_span_add_le raw.toNat (rangeOkU_iff.mp check).1⟩

/-! ### Signed bounds (R162) -/

/-- The unsigned difference of ordered signed bounds is the exact one. -/
theorem toNat_sub_of_toInt_le (ordered : lo.toInt ≤ hi.toInt) : ((hi - lo).toNat : Int) = hi.toInt - lo.toInt := by
  have := lo.isLt
  have := hi.isLt
  simp only [BitVec.toInt_eq_toNat_cond] at ordered ⊢
  rw [BitVec.toNat_sub]
  omega

theorem rangeOkI_iff : rangeOkI lo hi = true ↔ lo.toInt ≤ hi.toInt ∧ hi.toInt - lo.toInt < 2 ^ 64 - 1 := by
  rw [rangeOkI, Bool.and_eq_true, decide_eq_true_iff, decide_eq_true_iff]
  refine and_congr_right fun ordered => ?_
  have difference := toNat_sub_of_toInt_le ordered
  have := (hi - lo).isLt
  omega

/-- The check refuses inverted bounds and the full range. -/
theorem rangeOkI_eq_false_iff :
    rangeOkI lo hi = false ↔ hi.toInt < lo.toInt ∨ (lo.toInt = -(2 ^ 63) ∧ hi.toInt = 2 ^ 63 - 1) := by
  have := lo.le_toInt
  have := hi.toInt_lt
  rw [← Bool.not_eq_true, rangeOkI_iff]
  omega

theorem add_emod_span_bounds (raw : Int) (ordered : lo.toInt ≤ hi.toInt) :
    lo.toInt ≤ lo.toInt + raw % (hi.toInt - lo.toInt + 1) ∧
      lo.toInt + raw % (hi.toInt - lo.toInt + 1) ≤ hi.toInt := by
  have nonneg := Int.emod_nonneg raw (by omega : hi.toInt - lo.toInt + 1 ≠ 0)
  have below := Int.emod_lt_of_pos raw (by omega : 0 < hi.toInt - lo.toInt + 1)
  omega

/-- An offset that stays at or below `hi` is added to `lo` without a wrap. -/
theorem toInt_ofNat_add {k : Nat} (h : lo.toInt + k ≤ hi.toInt) : (BitVec.ofNat 64 k + lo).toInt = lo.toInt + k := by
  have := lo.le_toInt
  have := hi.toInt_lt
  rw [BitVec.toInt_add, BitVec.toInt_ofNat', Int.bmod_add_bmod, add_comm]
  exact Int.bmod_eq_of_le (by omega) (by omega)

theorem mapI_of_accepted (raw : Word) (ok : rangeOkI lo hi = true) :
    ∃ w, mapI raw lo hi = .ok w ∧ w.toInt = lo.toInt + (raw.toNat : Int) % (hi.toInt - lo.toInt + 1) := by
  obtain ⟨ordered, -⟩ := rangeOkI_iff.mp ok
  have offset : ((raw.toNat % ((hi - lo).toNat + 1) : Nat) : Int) = raw.toNat % (hi.toInt - lo.toInt + 1) := by
    rw [Int.natCast_emod, Int.natCast_succ, toNat_sub_of_toInt_le ordered]
  refine ⟨_, mapI_of_ok raw ok, ?_⟩
  rw [← offset]
  exact toInt_ofNat_add (offset ▸ (add_emod_span_bounds raw.toNat ordered).2)

theorem mapI_of_rejected (raw : Word) (rejected : rangeOkI lo hi = false) : mapI raw lo hi = .error .range := by
  rw [mapI, rejected, if_neg Bool.false_ne_true]

theorem mapI_bounds {raw : Word} (h : mapI raw lo hi = .ok w) : lo.toInt ≤ w.toInt ∧ w.toInt ≤ hi.toInt := by
  cases check : rangeOkI lo hi with
  | false => cases (mapI_of_rejected raw check).symm.trans h
  | true =>
    obtain ⟨v, mapped, value⟩ := mapI_of_accepted raw check
    cases mapped.symm.trans h
    rw [value]
    exact add_emod_span_bounds raw.toNat (rangeOkI_iff.mp check).1

/-! ### Answers, from what the mapping gives -/

theorem completeMapped_ok (s : State) (w : Word) :
    completeMapped s (.ok w) = .next { s with rspStatus := 0#3, rspRes := ⟨w, 0, 0, 0⟩ } := rfl

theorem completeMapped_range (s : State) :
    completeMapped s (.error .range) = .next { s with rspStatus := 1#3, rspRes := ⟨0, 0, 0, 0⟩ } := rfl

/-- A draw that is mapped writes the mapped word and advances X once. -/
theorem completeDrawn_advance_ok (s : State) (w : Word) :
    completeDrawn (setX s (xoAdvance s.x)) (.ok w) =
      .next { s with x := advanced s.x, rspStatus := 0#3, rspRes := ⟨w, 0, 0, 0⟩ } := by
  rw [← respond_draw]
  rfl

/-- An answer with status OK carries the mapped word, of a mapping that raises RANGE when its check fails. -/
theorem ok_of_completeMapped {check : Bool} {r : Except Status Word}
    (mapping : r = if check then .ok w else .error .range) (h : completeMapped s r = .next t)
    (ok : t.rspStatus = 0#3) : r = .ok t.rspRes.x0 := by
  subst mapping
  cases check with
  | false =>
    rw [reject_next .range h, respond_rspStatus] at ok
    exact absurd ok (by decide)
  | true => rw [complete_next _ h]; rfl

/-- The same after a check that answers RANGE, for a command that draws. -/
theorem ok_of_checked_completeDrawn {check : Bool} {u : State} {r : Except Status Word}
    (h : (if check then completeDrawn u r else .next (respond s .range Quad.zero)) = .next t)
    (ok : t.rspStatus = 0#3) : r = .ok t.rspRes.x0 := by
  cases check with
  | false =>
    rw [reject_next .range h, respond_rspStatus] at ok
    exact absurd ok (by decide)
  | true =>
    obtain ⟨w, rfl, rfl⟩ := (completeDrawn_next_iff r).mp h
    rfl

/-! ### The commands -/

/-- Settles O10: MAPU answers with the mapping, whose check accepts the bounds of the first clause, not the second's. -/
theorem unsignedMapCommand : Obligations.UnsignedMapCommand := by
  intro raw lo hi s
  have word : 0x40#32 = (encode (.mapu raw lo hi)).cmd := (by decide : 0x40#32 = 0#17 ++ 0#7 ++ 0x40#8)
  refine ⟨decode_of_encoded_word word rfl, fun ordered notFull => ?_, fun outside => ?_⟩
  · obtain ⟨w, mapped, value⟩ := mapU_of_accepted raw (rangeOkU_iff.mpr ⟨ordered, notFull⟩)
    exact ⟨w, by rw [exec_mapu, mapped, completeMapped_ok], value⟩
  · rw [exec_mapu, mapU_of_rejected raw (rangeOkU_eq_false_iff.mpr outside), completeMapped_range]

/-- Settles O11: as O10, the mapped value being exact over the integers. -/
theorem signedMapCommand : Obligations.SignedMapCommand := by
  intro raw lo hi s
  have word : 0x41#32 = (encode (.mapi raw lo hi)).cmd := (by decide : 0x41#32 = 0#17 ++ 0#7 ++ 0x41#8)
  refine ⟨decode_of_encoded_word word rfl, fun ordered notFull => ?_, fun outside => ?_⟩
  · obtain ⟨w, mapped, value⟩ := mapI_of_accepted raw (rangeOkI_iff.mpr ⟨ordered, notFull⟩)
    exact ⟨w, by rw [exec_mapi, mapped, completeMapped_ok], value⟩
  · rw [exec_mapi, mapI_of_rejected raw (rangeOkI_eq_false_iff.mpr outside), completeMapped_range]

/-- Settles O12: behind the same check, RNGU maps one draw of the integer output. -/
theorem unsignedRangeCommand : Obligations.UnsignedRangeCommand := by
  intro lo hi c s
  have word : 0x48#32 = (encode (.rngu lo hi)).cmd := (by decide : 0x48#32 = 0#17 ++ 0#7 ++ 0x48#8)
  refine ⟨decode_of_encoded_word word rfl, fun ordered notFull => ?_, fun outside => ?_⟩
  · have accepted := rangeOkU_iff.mpr ⟨ordered, notFull⟩
    obtain ⟨w, mapped, value⟩ := mapU_of_accepted (xoOutU64 s.x) accepted
    exact ⟨w, by rw [exec_rngu, if_pos accepted, mapped, completeDrawn_advance_ok], by rw [value, xoOutU64_toNat]⟩
  · rw [exec_rngu, rangeOkU_eq_false_iff.mpr outside, if_neg Bool.false_ne_true, respond_range]

/-- Settles O13: behind the same check, RNGI maps one draw of the integer output. -/
theorem signedRangeCommand : Obligations.SignedRangeCommand := by
  intro lo hi c s
  have word : 0x49#32 = (encode (.rngi lo hi)).cmd := (by decide : 0x49#32 = 0#17 ++ 0#7 ++ 0x49#8)
  refine ⟨decode_of_encoded_word word rfl, fun ordered notFull => ?_, fun outside => ?_⟩
  · have accepted := rangeOkI_iff.mpr ⟨ordered, notFull⟩
    obtain ⟨w, mapped, value⟩ := mapI_of_accepted (xoOutU64 s.x) accepted
    exact ⟨w, by rw [exec_rngi, if_pos accepted, mapped, completeDrawn_advance_ok], by rw [value, xoOutU64_toNat]⟩
  · rw [exec_rngi, rangeOkI_eq_false_iff.mpr outside, if_neg Bool.false_ne_true, respond_range]

/-- Settles O14: an OK result is a mapped word, whatever was mapped, and a mapped word lies between the bounds. -/
theorem integerRangeContainment : Obligations.IntegerRangeContainment := by
  intro raw lo hi s t ok
  constructor
  · rintro (mapped | drawn)
    · exact mapU_bounds (ok_of_completeMapped (check := rangeOkU lo hi) rfl mapped ok)
    · exact mapU_bounds (ok_of_checked_completeDrawn drawn ok)
  · rintro (mapped | drawn)
    · exact mapI_bounds (ok_of_completeMapped (check := rangeOkI lo hi) rfl mapped ok)
    · exact mapI_bounds (ok_of_checked_completeDrawn drawn ok)

end Sys2Proof.Proofs
end

section
/-! One rounding (R180): a rounded magnitude under a sign is what IEEE 754 makes of the exact value. From it, the sum, the
difference and the product of finite numbers. -/

namespace Sys2Proof.Proofs

open Sys2Proof.Machine Sys2Proof.Claims

variable {a b : Word}

/-! ### Signs and zeros -/

theorem magUnits_zero : magUnits 0 = 0 := by decide

theorem natAbs_signed (neg : Bool) (m : Nat) : (signed neg m).natAbs = m := by
  cases neg <;> simp [signed]

theorem signed_zero (neg : Bool) : signed neg 0 = 0 := by
  cases neg <;> rfl

theorem signed_decide_natAbs (v : Int) : signed (decide (v < 0)) v.natAbs = v := by
  by_cases negative : v < 0
  · rw [decide_eq_true negative, signed, if_pos rfl]
    omega
  · rw [decide_eq_false negative, signed, if_neg Bool.false_ne_true]
    omega

theorem signed_mul_signed (s t : Bool) (m n : Nat) : signed s m * signed t n = signed (s != t) (m * n) := by
  cases s <;> cases t <;> simp [signed]

/-- Under one sign, a distance is that of the magnitudes. -/
theorem natAbs_signed_mul_sub (neg : Bool) (u den num : Nat) :
    (signed neg u * den - signed neg num).natAbs = ((u : Int) * den - num).natAbs := by
  cases neg with
  | false => rfl
  | true =>
    rw [← Int.natAbs_neg, signed, if_pos rfl, signed, if_pos rfl]
    congr 1
    ring

/-- Under opposite signs, a distance is the sum of the magnitudes. -/
theorem natAbs_signed_not_mul_sub (neg : Bool) (u den num : Nat) :
    (signed (!neg) u * den - signed neg num).natAbs = u * den + num := by
  cases neg <;> simp [signed] <;> omega

theorem floatPattern_zero (neg : Bool) : floatPattern neg 0 = signedZero neg := by
  cases neg <;> rfl

/-! ### One rounding -/

theorem roundMag_lt (num den : Nat) : roundMag num den < 2 ^ 63 :=
  (roundMag_le num den).trans_lt (by decide)

theorem floatValue_roundFloat (neg : Bool) (num den : Nat) :
    floatValue (roundFloat neg num den) = signed neg (magUnits (roundMag num den)) :=
  floatValue_floatPattern neg (roundMag_lt num den)

theorem floatFraction_roundFloat_even (neg : Bool) {num den : Nat} (h : roundMag num den % 2 = 0) :
    floatFraction (roundFloat neg num den) % 2 = 0 := by
  rw [roundFloat, (floatPattern_fields neg (roundMag_lt num den)).2.2]
  omega

theorem isFinite_roundFloat (neg : Bool) (num den : Nat) :
    isFinite (roundFloat neg num den) = true ↔ roundMag num den < infinityMag :=
  isFinite_floatPattern neg (roundMag_le num den)

theorem isFinite_roundFloat_eq_false (neg : Bool) (num den : Nat) :
    isFinite (roundFloat neg num den) = false ↔ roundMag num den = infinityMag := by
  have := roundMag_le num den
  rw [← Bool.not_eq_true, isFinite_roundFloat]
  omega

/-- Among the finite patterns, those of the other sign are no nearer than zero, and those of the same sign are magnitudes
`roundMag` was compared with. -/
theorem roundFloat_nearest (neg : Bool) (num : Nat) {den : Nat} (pos : 0 < den)
    (finite : roundMag num den < infinityMag) (y : Word) :
    (floatValue (roundFloat neg num den) * den - signed neg num).natAbs ≤
        (floatValue y * den - signed neg num).natAbs ∧
      (floatValue y ≠ floatValue (roundFloat neg num den) →
        (floatValue (roundFloat neg num den) * den - signed neg num).natAbs =
          (floatValue y * den - signed neg num).natAbs →
        floatFraction (roundFloat neg num den) % 2 = 0) := by
  rw [floatValue_roundFloat, floatValue_eq y, natAbs_signed_mul_sub]
  by_cases sameSign : floatSign y = neg
  · obtain ⟨nearest, tie⟩ := roundMag_nearest num pos finite (y.toNat % 2 ^ 63)
    rw [sameSign, natAbs_signed_mul_sub]
    exact ⟨nearest, fun other equal =>
      floatFraction_roundFloat_even neg (tie (fun same => other (congrArg (signed neg) same)) equal)⟩
  · obtain ⟨nearest, tie⟩ := roundMag_nearest num pos finite 0
    have zeroDistance : (((magUnits 0 : Nat) : Int) * den - num).natAbs = num := by
      rw [magUnits_zero]
      simp
    rw [zeroDistance] at nearest tie
    rw [Bool.eq_not_of_ne sameSign, natAbs_signed_not_mul_sub]
    refine ⟨by omega, fun other equal => floatFraction_roundFloat_even neg (tie (fun same => other ?_) ?_)⟩
    · have units : magUnits (y.toNat % 2 ^ 63) = 0 := by
        have product : magUnits (y.toNat % 2 ^ 63) * den = 0 := by omega
        exact (Nat.mul_eq_zero.mp product).resolve_right pos.ne'
      rw [units, ← same, magUnits_zero, signed_zero, signed_zero]
    · omega

/-- The rounded pattern of a signed magnitude is that magnitude rounded as R180 and IEEE 754 say. -/
theorem roundFloat_roundsTo (neg : Bool) (num : Nat) {den : Nat} (pos : 0 < den) :
    roundsTo (roundFloat neg num den) (signed neg num) den := by
  have infinite : roundMag num den = infinityMag ↔ overflowUnits * den ≤ num := roundMag_infinite_iff num pos
  refine ⟨fun finite y _ => roundFloat_nearest neg num pos ((isFinite_roundFloat neg num den).mp finite) y, ?_,
    fun overflow => ?_⟩
  · rw [isFinite_roundFloat_eq_false, natAbs_signed, infinite]
  · have mag := (isFinite_roundFloat_eq_false neg num den).mp overflow
    have large : 0 < overflowUnits * den := Nat.mul_pos (by decide +kernel) pos
    have numPos : 0 < num := large.trans_le (infinite.mp mag)
    rw [roundFloat, mag]
    cases neg with
    | false => rw [signed, if_neg Bool.false_ne_true, if_neg (by omega)]; rfl
    | true => rw [signed, if_pos rfl, if_pos (by omega)]; rfl

/-! ### The operations -/

/-- A sum of finite numbers is rounded once, an exact sum of zero under its own sign. -/
theorem fadd_eq_roundFloat (ha : isFinite a = true) (hb : isFinite b = true) :
    ∃ neg, fadd a b = roundFloat neg (floatValue a + floatValue b).natAbs 1 ∧
      signed neg (floatValue a + floatValue b).natAbs = floatValue a + floatValue b := by
  rw [fadd_of_isFinite ha hb]
  by_cases zero : floatValue a + floatValue b = 0
  · rw [if_pos zero, zero]
    exact ⟨floatSign a && floatSign b, rfl, signed_zero _⟩
  · rw [if_neg zero]
    exact ⟨_, rfl, signed_decide_natAbs _⟩

/-- Settles O20: the exact sum is rounded once, and an exact sum of zero takes its sign from the operands'. -/
theorem floatSumNearest : Obligations.FloatSumNearest := by
  intro a b ha hb
  constructor
  · obtain ⟨neg, rounded, value⟩ := fadd_eq_roundFloat ha hb
    rw [rounded, ← value, natAbs_signed]
    exact roundFloat_roundsTo neg _ one_pos
  · intro zero
    rw [fadd_of_isFinite ha hb, if_pos zero, floatPattern_zero]

/-- Settles O59: a difference is the sum with the subtrahend's sign turned over. -/
theorem floatDifferenceNearest : Obligations.FloatDifferenceNearest := by
  intro a b ha hb
  obtain ⟨-, -, sign⟩ := fneg_fields b
  rw [fsub, sub_eq_add_neg, ← floatValue_fneg, ← sign]
  exact floatSumNearest a (fneg b) ha ((isFinite_fneg b).trans hb)

theorem oneUnits_pos : 0 < oneUnits := by
  rw [oneUnits]
  positivity

/-- A rounded magnitude of value zero has no bit set below its sign. -/
theorem roundFloat_of_floatValue_eq_zero {neg : Bool} {num den : Nat} (h : floatValue (roundFloat neg num den) = 0) :
    roundFloat neg num den = signedZero neg := by
  rw [floatValue_roundFloat] at h
  have units : magUnits (roundMag num den) = magUnits 0 := by
    rw [← natAbs_signed neg (magUnits (roundMag num den)), h]
    rfl
  rw [roundFloat, magUnits_strictMono.injective units, floatPattern_zero]

/-- Settles O21: the product of the units, over those of 1.0, is rounded once, under the product of the signs. -/
theorem floatProductNearest : Obligations.FloatProductNearest := by
  intro a b ha hb
  rw [fmul_of_isFinite ha hb, floatValue, floatValue, signed_mul_signed]
  exact ⟨roundFloat_roundsTo _ _ oneUnits_pos, (floatPattern_fields _ (roundMag_lt _ _)).1,
    roundFloat_of_floatValue_eq_zero⟩

end Sys2Proof.Proofs
end

section
/-! The NaNs and infinities of the float operations (R180, log 16): a NaN operand makes the canonical NaN, and no other NaN
is delivered. -/

namespace Sys2Proof.Proofs

open Sys2Proof.Machine Sys2Proof.Claims

variable {a b r : Word}

/-! ### The canonical NaN (R180) -/

/-- What a float operation delivers: the canonical NaN, or a sign and a magnitude up to infinity's. -/
def Delivered (r : Word) : Prop := r = canonicalNaN ∨ ∃ neg, ∃ mag ≤ infinityMag, r = floatPattern neg mag

theorem isNaN_floatPattern (neg : Bool) {mag : Nat} (h : mag ≤ infinityMag) : isNaN (floatPattern neg mag) = false := by
  unfold infinityMag at h
  obtain ⟨-, exponent, fraction⟩ := floatPattern_fields neg (by omega : mag < 2 ^ 63)
  rw [← Bool.not_eq_true, isNaN_iff, exponent, fraction]
  omega

theorem Delivered.canonical (h : Delivered r) (nan : isNaN r = true) : r = canonicalNaN := by
  rcases h with canonical | ⟨neg, mag, bound, rfl⟩
  · exact canonical
  · exact absurd nan (Bool.eq_false_iff.mp (isNaN_floatPattern neg bound))

theorem delivered_infinity (neg : Bool) : Delivered (floatPattern neg infinityMag) := .inr ⟨neg, _, le_rfl, rfl⟩

theorem delivered_roundFloat (neg : Bool) (num den : Nat) : Delivered (roundFloat neg num den) :=
  .inr ⟨neg, _, roundMag_le num den, rfl⟩

theorem delivered_addFinite (s : Bool) (m : Nat) (t : Bool) (n : Nat) : Delivered (addFinite s m t n) := by
  simp only [addFinite]
  split
  · exact .inr ⟨s && t, 0, Nat.zero_le _, rfl⟩
  · exact delivered_roundFloat ..

theorem fadd_delivered (a b : Word) : Delivered (fadd a b) := by
  unfold fadd
  split
  · exact .inl rfl
  · exact .inl rfl
  · split
    · exact delivered_infinity _
    · exact .inl rfl
  · exact delivered_infinity _
  · exact delivered_infinity _
  · exact delivered_addFinite ..

theorem fmul_delivered (a b : Word) : Delivered (fmul a b) := by
  unfold fmul
  split
  · exact .inl rfl
  · exact .inl rfl
  · exact delivered_infinity _
  · split
    · exact .inl rfl
    · exact delivered_infinity _
  · split
    · exact .inl rfl
    · exact delivered_infinity _
  · exact delivered_roundFloat ..

/-! ### NaN operands (log 16) -/

theorem fadd_of_isNaN (h : isNaN a = true ∨ isNaN b = true) : fadd a b = canonicalNaN := by
  unfold fadd
  rcases h with ha | hb
  · rw [datum_eq_nan_of_isNaN ha]
  · rw [datum_eq_nan_of_isNaN hb]; cases datum a <;> rfl

theorem fmul_of_isNaN (h : isNaN a = true ∨ isNaN b = true) : fmul a b = canonicalNaN := by
  unfold fmul
  rcases h with ha | hb
  · rw [datum_eq_nan_of_isNaN ha]
  · rw [datum_eq_nan_of_isNaN hb]; cases datum a <;> rfl

theorem isNaN_fneg (a : Word) : isNaN (fneg a) = isNaN a := by
  obtain ⟨exponent, fraction, -⟩ := fneg_fields a
  rw [Bool.eq_iff_iff, isNaN_iff, isNaN_iff, exponent, fraction]

theorem fsub_of_isNaN (h : isNaN a = true ∨ isNaN b = true) : fsub a b = canonicalNaN :=
  fadd_of_isNaN (by rwa [isNaN_fneg])

theorem isNaN_canonicalNaN : isNaN canonicalNaN = true := by decide

/-- Settles O22: what an operation delivers is the canonical NaN or no NaN, and the former from a NaN operand. -/
theorem floatNaNCanonical : Obligations.FloatNaNCanonical := by
  intro a b
  refine ⟨(fadd_delivered a b).canonical, (fadd_delivered a (fneg b)).canonical, (fmul_delivered a b).canonical,
    fun nan => ?_⟩
  rw [fadd_of_isNaN nan, fsub_of_isNaN nan, fmul_of_isNaN nan]
  exact ⟨isNaN_canonicalNaN, isNaN_canonicalNaN, isNaN_canonicalNaN⟩

/-! ### Infinite operands (log 16) -/

/-- A pattern that is no NaN and not finite is an infinity. -/
theorem datum_cases (a : Word) : isNaN a = true ∨ isFinite a = true ∨ ∃ neg, datum a = .inf neg := by
  cases h : datum a with
  | nan => exact .inl (by rw [isNaN, h]; rfl)
  | inf neg => exact .inr (.inr ⟨neg, rfl⟩)
  | fin neg units =>
    refine .inr (.inl ?_)
    rw [isFinite, bne_iff_ne]
    intro exponent
    rw [datum, if_pos exponent] at h
    split at h <;> cases h

theorem datum_fneg_inf {neg : Bool} (h : datum a = .inf neg) : datum (fneg a) = .inf (!neg) := by
  obtain ⟨exponent, fraction, sign⟩ := fneg_fields a
  unfold datum at h ⊢
  rw [exponent, fraction, sign]
  split at h
  next special =>
    split at h
    next infinite => cases h; rw [if_pos special, if_pos infinite]
    · cases h
  · cases h

theorem fadd_inf_left {neg : Bool} (ha : datum a = .inf neg) (hb : isFinite b = true) :
    fadd a b = floatPattern neg infinityMag := by
  rw [fadd, ha, datum_of_isFinite hb]

theorem fadd_inf_right {neg : Bool} (ha : isFinite a = true) (hb : datum b = .inf neg) :
    fadd a b = floatPattern neg infinityMag := by
  rw [fadd, datum_of_isFinite ha, hb]

theorem fadd_inf_inf {s t : Bool} (ha : datum a = .inf s) (hb : datum b = .inf t) :
    fadd a b = if s = t then floatPattern s infinityMag else canonicalNaN := by
  rw [fadd, ha, hb]

/-- An infinity times a finite number: the canonical NaN for zero, else the infinity of the product's sign. -/
theorem fmul_inf_left {neg : Bool} (ha : datum a = .inf neg) (hb : isFinite b = true) :
    fmul a b = if floatValue b = 0 then canonicalNaN else floatPattern (neg != floatSign b) infinityMag := by
  have zero : floatUnits (floatExponent b) (floatFraction b) = 0 ↔ floatValue b = 0 := by
    rw [← natAbs_signed (floatSign b) (floatUnits _ _), Int.natAbs_eq_zero, floatValue]
  rw [fmul, ha, datum_of_isFinite hb]
  simp only [zero]

end Sys2Proof.Proofs
end

section
/-! The float range mapper (R181): the bounds and raw values it accepts, and the commands MAPF, RNGFS and RNGFX (R183 to
R185). -/

namespace Sys2Proof.Proofs

open Sys2Proof.Machine Sys2Proof.Claims

variable {raw lo hi w : Word}

/-! ### The two checks (R181) -/

theorem rangeOkF_iff : rangeOkF lo hi = true ↔ fgt hi lo = true := Iff.rfl

theorem rawOkF_iff : rawOkF raw = true ↔ fge raw 0#64 = true ∧ flt raw 0x3FF0000000000000#64 = true := by
  rw [rawOkF, Bool.and_eq_true, floatOne]

theorem rawOkF_eq_false_iff : rawOkF raw = false ↔ fge raw 0#64 = false ∨ flt raw 0x3FF0000000000000#64 = false := by
  rw [rawOkF, Bool.and_eq_false_iff, floatOne]

theorem mapF_range (raw : Word) (h : fgt hi lo = false) : mapF raw lo hi = .error .range := by
  rw [mapF, rangeOkF, h, if_neg Bool.false_ne_true]

theorem mapF_other (accepted : fgt hi lo = true) (h : rawOkF raw = false) : mapF raw lo hi = .error .other := by
  rw [mapF, rangeOkF, if_pos accepted, h, if_neg Bool.false_ne_true]

/-- `map_f` raises RANGE, raises OTHER, or both checks pass and it gives the three rounded operations. -/
theorem mapF_cases (raw lo hi : Word) :
    mapF raw lo hi = .error .range ∨ mapF raw lo hi = .error .other ∨
      (fgt hi lo = true ∧ rawOkF raw = true ∧ mapF raw lo hi = .ok (lerpF raw lo hi)) := by
  cases accepted : fgt hi lo with
  | false => exact .inl (mapF_range raw accepted)
  | true =>
    cases inside : rawOkF raw with
    | false => exact .inr (.inl (mapF_other accepted inside))
    | true => exact .inr (.inr ⟨rfl, rfl, mapF_of_ok accepted inside⟩)

/-- What a mapped word says of its operands. -/
theorem mapF_ok (h : mapF raw lo hi = .ok w) : fgt hi lo = true ∧ rawOkF raw = true ∧ w = lerpF raw lo hi := by
  rcases mapF_cases raw lo hi with range | other | ⟨accepted, inside, mapped⟩
  · cases range.symm.trans h
  · cases other.symm.trans h
  · cases mapped.symm.trans h
    exact ⟨accepted, inside, rfl⟩

/-! ### The commands -/

theorem completeMapped_other (s : State) :
    completeMapped s (.error .other) = .next { s with rspStatus := 4#3, rspRes := ⟨0, 0, 0, 0⟩ } := rfl

theorem completeDrawn_setSeed_ok (s : State) (v w : Word) :
    completeDrawn (setSeed s v) (.ok w) = .next { s with seed := v, rspStatus := 0#3, rspRes := ⟨w, 0, 0, 0⟩ } := rfl

/-- MAPF from accepted bounds and an accepted raw value. -/
theorem exec_mapf_of_ok (s : State) (accepted : fgt hi lo = true) (inside : rawOkF raw = true) :
    exec (.mapf raw lo hi) s = .next { s with rspStatus := 0#3, rspRes := ⟨lerpF raw lo hi, 0, 0, 0⟩ } := by
  rw [exec_mapf, mapF_of_ok accepted inside, completeMapped_ok]

/-- Settles O15: MAPF answers with the mapping, and its last operation delivers no NaN but the canonical one. -/
theorem floatMapCommand : Obligations.FloatMapCommand := by
  intro raw lo hi s
  have word : 0x50#32 = (encode (.mapf raw lo hi)).cmd := (by decide : 0x50#32 = 0#17 ++ 0#7 ++ 0x50#8)
  refine ⟨decode_of_encoded_word word rfl, fun accepted nonneg below => ?_, fun accepted outside => ?_,
    fun rejected => ?_⟩
  · exact ⟨lerpF raw lo hi, exec_mapf_of_ok s accepted (rawOkF_iff.mpr ⟨nonneg, below⟩), rfl,
      (fadd_delivered _ lo).canonical⟩
  · rw [exec_mapf, mapF_other accepted (rawOkF_eq_false_iff.mpr outside), completeMapped_other]
  · rw [exec_mapf, mapF_range raw rejected, completeMapped_range]

/-- Settles O16: behind the range check, RNGFS maps the exact fraction of the stepped seed, which passes the raw check. -/
theorem scalarFloatRangeCommand : Obligations.ScalarFloatRangeCommand := by
  intro lo hi c s
  have word : 0x58#32 = (encode (.rngfs lo hi)).cmd := (by decide : 0x58#32 = 0#17 ++ 0#7 ++ 0x58#8)
  refine ⟨decode_of_encoded_word word rfl, fun accepted => ?_, fun rejected => ?_⟩
  · refine ⟨xsStep s.seed, xsFloat (xsStep s.seed), ?_, xsStep_toNat s.seed, isFraction53_top53 _⟩
    rw [exec_rngfs, if_pos (rangeOkF_iff.mpr accepted), mapF_of_ok accepted (rawOkF_xsFloat _),
      completeDrawn_setSeed_ok, lerpF]
  · rw [exec_rngfs, rangeOkF, rejected, if_neg Bool.false_ne_true, respond_range]

/-- Settles O17: behind the range check, RNGFX maps one draw of the float output, which passes the raw check. -/
theorem multiWordFloatRangeCommand : Obligations.MultiWordFloatRangeCommand := by
  intro lo hi c s
  have word : 0x59#32 = (encode (.rngfx lo hi)).cmd := (by decide : 0x59#32 = 0#17 ++ 0#7 ++ 0x59#8)
  refine ⟨decode_of_encoded_word word rfl, fun accepted => ?_, fun rejected => ?_⟩
  · refine ⟨xoOutF64 s.x, ?_, xoOutF64_isFraction53 s.x⟩
    rw [exec_rngfx, if_pos (rangeOkF_iff.mpr accepted), mapF_of_ok accepted (rawOkF_xoOutF64 _),
      completeDrawn_advance_ok, lerpF]
  · rw [exec_rngfx, rangeOkF, rejected, if_neg Bool.false_ne_true, respond_range]

end Sys2Proof.Proofs
end

section
/-! Where an accepted float mapping is infinite or a NaN (R182): an infinite bound, or a difference of the bounds that
overflows. -/

namespace Sys2Proof.Proofs

open Sys2Proof.Machine Sys2Proof.Claims

variable {raw lo hi : Word}

/-! ### Accepted raw values -/

theorem isFinite_zero : isFinite 0#64 = true := by decide

theorem floatValue_zero : floatValue 0#64 = 0 := by decide

theorem isFinite_floatOne : isFinite floatOne = true := by decide

theorem fle_inf_right {neg : Bool} {a b : Word} (ha : isFinite a = true) (hb : datum b = .inf neg) :
    fle a b = !neg := by
  rw [fle, datum_of_isFinite ha, hb]

theorem flt_inf_inf {x y : Bool} {a b : Word} (ha : datum a = .inf x) (hb : datum b = .inf y) :
    flt a b = (x && !y) := by
  rw [flt, ha, hb]

/-- No NaN and no infinity lies in [0,1). -/
theorem isFinite_of_rawOkF (h : rawOkF raw = true) : isFinite raw = true := by
  obtain ⟨nonneg, below⟩ := Bool.and_eq_true_iff.mp h
  rcases datum_cases raw with nan | finite | ⟨neg, infinite⟩
  · rw [flt_of_isNaN (.inl nan)] at below
    cases below
  · exact finite
  · rw [flt_inf_left infinite isFinite_floatOne] at below
    rw [fge, fle_inf_right isFinite_zero infinite, below] at nonneg
    cases nonneg

/-- An accepted raw value is a number of units from 0 to below those of 1.0. -/
theorem floatValue_of_rawOkF (h : rawOkF raw = true) : 0 ≤ floatValue raw ∧ floatValue raw < floatValue floatOne := by
  have finite := isFinite_of_rawOkF h
  obtain ⟨nonneg, below⟩ := Bool.and_eq_true_iff.mp h
  rw [fge, fle_of_isFinite isFinite_zero finite, decide_eq_true_iff, floatValue_zero] at nonneg
  rw [flt_of_isFinite finite isFinite_floatOne, decide_eq_true_iff] at below
  exact ⟨nonneg, below⟩

theorem floatSign_of_pos {a : Word} (h : 0 < floatValue a) : floatSign a = false := by
  cases sign : floatSign a with
  | false => rfl
  | true =>
    rw [floatValue, sign, signed, if_pos rfl] at h
    omega

/-! ### An infinite difference -/

/-- What lies above a finite number, and is not finite, is +inf. -/
theorem datum_of_flt_of_not_isFinite {a b : Word} (less : flt a b = true) (ha : isFinite a = true)
    (hb : isFinite b = false) : datum b = .inf false := by
  rcases datum_cases b with nan | finite | ⟨neg, infinite⟩
  · rw [flt_of_isNaN (.inr nan)] at less
    cases less
  · cases finite.symm.trans hb
  · rw [flt_inf_right ha infinite, Bool.not_eq_true'] at less
    rw [infinite, less]

theorem datum_infinity (neg : Bool) : datum (floatPattern neg infinityMag) = .inf neg := by
  cases neg <;> decide

/-- The difference of accepted bounds is +inf when `lo` is finite and either `hi` is not or their difference overflows. -/
theorem fsub_eq_infinity (accepted : fgt hi lo = true) (finiteLo : isFinite lo = true)
    (h : isFinite hi = false ∨ isFinite (fsub hi lo) = false) : fsub hi lo = floatPattern false infinityMag := by
  cases finiteHi : isFinite hi with
  | false =>
    exact fadd_inf_left (datum_of_flt_of_not_isFinite accepted finiteLo finiteHi) ((isFinite_fneg lo).trans finiteLo)
  | true =>
    have overflow : isFinite (fsub hi lo) = false := h.resolve_left (by rw [finiteHi]; decide)
    have less : floatValue lo < floatValue hi := by
      rwa [fgt, flt_of_isFinite finiteLo finiteHi, decide_eq_true_iff] at accepted
    obtain ⟨-, -, infinity⟩ := (floatDifferenceNearest hi lo finiteHi finiteLo).1
    rw [infinity overflow, if_neg (by omega)]
    rfl

/-- The difference of accepted bounds is +inf when `lo` is -inf. -/
theorem fsub_negInfinity_eq_infinity (accepted : fgt hi lo = true) (h : datum lo = .inf true) :
    fsub hi lo = floatPattern false infinityMag := by
  have negated : datum (fneg lo) = .inf false := datum_fneg_inf h
  rcases datum_cases hi with nan | finite | ⟨neg, infinite⟩
  · rw [fgt, flt_of_isNaN (.inr nan)] at accepted
    cases accepted
  · exact fadd_inf_right finite negated
  · rw [fgt, flt_inf_inf h infinite, Bool.true_and, Bool.not_eq_true'] at accepted
    rw [fsub, fadd_inf_inf infinite negated, if_pos accepted, accepted]

/-- A difference of +inf times an accepted raw value. -/
theorem fmul_infinity_of_rawOkF (h : rawOkF raw = true) :
    fmul (floatPattern false infinityMag) raw =
      if floatValue raw = 0 then canonicalNaN else floatPattern false infinityMag := by
  rw [fmul_inf_left (datum_infinity false) (isFinite_of_rawOkF h)]
  by_cases zero : floatValue raw = 0
  · rw [if_pos zero, if_pos zero]
  · obtain ⟨nonneg, -⟩ := floatValue_of_rawOkF h
    rw [if_neg zero, if_neg zero, floatSign_of_pos (by omega), bne_self_eq_false]

/-- Settles O19: the difference is +inf, its product with raw the canonical NaN or +inf, and the sum with `lo` keeps that
NaN, keeps +inf over a finite `lo`, and is the canonical NaN for -inf. -/
theorem floatMapInfiniteCases : Obligations.FloatMapInfiniteCases := by
  intro raw lo hi s accepted nonneg below
  have inside : rawOkF raw = true := rawOkF_iff.mpr ⟨nonneg, below⟩
  have product := fmul_infinity_of_rawOkF inside
  rw [exec_mapf_of_ok s accepted inside]
  refine ⟨fun finiteLo infinite => ⟨fun zero => ?_, fun positive => ?_⟩, fun negInfinity => ?_⟩
  · rw [lerpF, fsub_eq_infinity accepted finiteLo infinite, product, if_pos zero,
      fadd_of_isNaN (.inl isNaN_canonicalNaN), canonicalNaN]
  · rw [lerpF, fsub_eq_infinity accepted finiteLo infinite, product, if_neg positive.ne',
      fadd_inf_left (datum_infinity false) finiteLo]
    rfl
  · have lowest : datum lo = .inf true := by rw [negInfinity]; decide
    rw [lerpF, fsub_negInfinity_eq_infinity accepted lowest, product]
    split
    · rw [fadd_of_isNaN (.inl isNaN_canonicalNaN), canonicalNaN]
    · rw [fadd_inf_inf (datum_infinity false) lowest, if_neg Bool.false_ne_true, canonicalNaN]

end Sys2Proof.Proofs
end

section
/-! Containment of the float mapping (R186). Rounding is monotone between finite numbers, so the product of the difference
and raw lies between 0 and the difference, and the sum is at least `lo`. The difference may have been rounded up; but raw is
at most 1 - 2^-53, so the product is then below the rounded difference, hence at most the exact one, and the sum is at most
`hi`. -/

namespace Sys2Proof.Proofs

open Sys2Proof.Machine Sys2Proof.Claims

variable {a b d r y raw lo hi : Word} {num : Int} {den : Nat} {s t : State}

/-! ### Rounding is monotone -/

/-- An exact value at most a finite number is rounded to at most that number. -/
theorem roundsTo_le (h : roundsTo r num den) (pos : 0 < den) (hr : isFinite r = true) (hy : isFinite y = true)
    (le : num ≤ floatValue y * den) : floatValue r ≤ floatValue y := by
  obtain ⟨nearest, -⟩ := h.1 hr y hy
  by_contra above
  have farther : floatValue y * (den : Int) < floatValue r * den :=
    mul_lt_mul_of_pos_right (not_le.mp above) (by exact_mod_cast pos)
  omega

/-- An exact value at least a finite number is rounded to at least that number. -/
theorem le_roundsTo (h : roundsTo r num den) (pos : 0 < den) (hr : isFinite r = true) (hy : isFinite y = true)
    (le : floatValue y * den ≤ num) : floatValue y ≤ floatValue r := by
  obtain ⟨nearest, -⟩ := h.1 hr y hy
  by_contra below
  have farther : floatValue r * (den : Int) < floatValue y * den :=
    mul_lt_mul_of_pos_right (not_le.mp below) (by exact_mod_cast pos)
  omega

theorem natAbs_floatValue (v : Word) : (floatValue v).natAbs = magUnits (v.toNat % 2 ^ 63) := by
  rw [floatValue_eq, natAbs_signed]

theorem magnitude_lt_infinityMag (h : isFinite a = true) : a.toNat % 2 ^ 63 < infinityMag := by
  have := a.isLt
  rw [isFinite, bne_iff_ne, floatExponent] at h
  unfold infinityMag
  omega

/-- A finite number is below the overflow bound. -/
theorem natAbs_floatValue_lt_overflowUnits (h : isFinite a = true) : (floatValue a).natAbs < overflowUnits := by
  have largest : magUnits (infinityMag - 1) < overflowUnits := by decide +kernel
  have := magnitude_lt_infinityMag h
  rw [natAbs_floatValue]
  exact (magUnits_strictMono.monotone (by omega)).trans_lt largest

/-- An exact value between two finite numbers is rounded to a finite number between them. -/
theorem roundsTo_between (h : roundsTo r num den) (pos : 0 < den) (ha : isFinite a = true) (hb : isFinite b = true)
    (lower : floatValue a * den ≤ num) (upper : num ≤ floatValue b * den) :
    isFinite r = true ∧ floatValue a ≤ floatValue r ∧ floatValue r ≤ floatValue b := by
  have finite : isFinite r = true := by
    rw [← Bool.not_eq_false, h.2.1]
    have boundA := Nat.mul_lt_mul_of_pos_right (natAbs_floatValue_lt_overflowUnits ha) pos
    have boundB := Nat.mul_lt_mul_of_pos_right (natAbs_floatValue_lt_overflowUnits hb) pos
    rw [← Int.natAbs_natCast den, ← Int.natAbs_mul, Int.natAbs_natCast] at boundA boundB
    omega
  exact ⟨finite, le_roundsTo h pos finite ha lower, roundsTo_le h pos finite hb upper⟩

/-! ### The gap below a number -/

/-- Neighbouring magnitudes above the least normal one differ by less than 1 part in 2^52 of the larger. -/
theorem magUnits_gap {mag : Nat} (normal : 2 ^ 52 ≤ mag) :
    2 ^ 52 * magUnits (mag + 1) < 2 ^ 52 * magUnits mag + magUnits (mag + 1) := by
  obtain ⟨e, f, small, rfl⟩ : ∃ e f, f < 2 ^ 52 ∧ mag = e * 2 ^ 52 + (2 ^ 52 + f) :=
    ⟨mag / 2 ^ 52 - 1, mag % 2 ^ 52, by omega, by omega⟩
  have positive : 0 < 2 ^ e := Nat.two_pow_pos e
  rw [Nat.add_assoc, magUnits_scaled (by omega) (.inr (by omega)), magUnits_scaled (by omega) (.inr (by omega))]
  linarith [Nat.mul_pos (Nat.succ_pos f) positive]

theorem floatValue_eq_magUnits (h : 0 ≤ floatValue a) : floatValue a = magUnits (a.toNat % 2 ^ 63) := by
  rw [← natAbs_floatValue]
  omega

/-- The number below a finite one of more than 2^52 units. -/
theorem exists_predecessor (hd : isFinite d = true) (large : 2 ^ 52 < floatValue d) :
    ∃ y, isFinite y = true ∧ floatValue y < floatValue d ∧
      2 ^ 52 * floatValue d < 2 ^ 52 * floatValue y + floatValue d := by
  have finite := magnitude_lt_infinityMag hd
  have value : floatValue d = magUnits (d.toNat % 2 ^ 63) := floatValue_eq_magUnits (by omega)
  generalize d.toNat % 2 ^ 63 = mag at *
  have normal : 2 ^ 52 < mag := by
    have least : magUnits (2 ^ 52) = 2 ^ 52 := by decide
    rw [← magUnits_strictMono.lt_iff_lt, least]
    omega
  obtain ⟨below, rfl⟩ : ∃ below, mag = below + 1 := ⟨mag - 1, by omega⟩
  have pattern : floatValue (floatPattern false below) = magUnits below := by
    rw [floatValue_floatPattern false (by unfold infinityMag at finite; omega), signed, if_neg Bool.false_ne_true]
  have less : magUnits below < magUnits (below + 1) := magUnits_strictMono (by omega)
  have gap := magUnits_gap (mag := below) (by omega)
  refine ⟨floatPattern false below, (isFinite_floatPattern false (by omega)).mpr (by omega), ?_⟩
  rw [pattern, value]
  omega

/-- Whole numbers of units up to 2^53 are numbers. -/
theorem exists_floatValue_eq {n : Int} (nonneg : 0 ≤ n) (small : n ≤ 2 ^ 53) :
    ∃ y, isFinite y = true ∧ floatValue y = n := by
  obtain ⟨q, rfl⟩ := Int.eq_ofNat_of_zero_le nonneg
  have units : magUnits q = q := by
    have scaled := magUnits_scaled (drop := 0) (q := q) (by omega) (.inl rfl)
    rwa [Nat.zero_mul, Nat.zero_add, pow_zero, Nat.mul_one] at scaled
  refine ⟨floatPattern false q, (isFinite_floatPattern false (by unfold infinityMag; omega)).mpr
    (by unfold infinityMag; omega), ?_⟩
  rw [floatValue_floatPattern false (by omega), units, signed, if_neg Bool.false_ne_true]

/-! ### The product with an accepted raw value -/

/-- An accepted raw value is at most 1 - 2^-53. -/
theorem floatValue_le_of_rawOkF (h : rawOkF raw = true) : 2 ^ 53 * floatValue raw ≤ (2 ^ 53 - 1) * (oneUnits : Int) := by
  obtain ⟨nonneg, below⟩ := floatValue_of_rawOkF h
  have one : floatValue floatOne = magUnits 0x3FF0000000000000 := floatValue_eq floatOne
  have last : 2 ^ 53 * magUnits 0x3FEFFFFFFFFFFFFF = (2 ^ 53 - 1) * oneUnits := by decide +kernel
  rw [floatValue_eq_magUnits nonneg, one, Int.ofNat_lt, magUnits_strictMono.lt_iff_lt] at below
  have atMost : magUnits (raw.toNat % 2 ^ 63) ≤ magUnits 0x3FEFFFFFFFFFFFFF :=
    magUnits_strictMono.monotone (by omega)
  rw [floatValue_eq_magUnits nonneg]
  omega

theorem floatValue_mul_raw_bounds (nonneg : 0 ≤ floatValue d) (inside : rawOkF raw = true) :
    0 ≤ floatValue d * floatValue raw ∧ floatValue d * floatValue raw ≤ floatValue d * oneUnits := by
  obtain ⟨rawNonneg, -⟩ := floatValue_of_rawOkF inside
  have atMost := floatValue_le_of_rawOkF inside
  exact ⟨mul_nonneg nonneg rawNonneg, mul_le_mul_of_nonneg_left (by omega) nonneg⟩

theorem fmul_raw_roundsTo (hd : isFinite d = true) (inside : rawOkF raw = true) :
    roundsTo (fmul d raw) (floatValue d * floatValue raw) oneUnits :=
  (floatProductNearest d raw hd (isFinite_of_rawOkF inside)).1

/-- The product lies between 0 and the other factor. -/
theorem fmul_raw_between (hd : isFinite d = true) (nonneg : 0 ≤ floatValue d) (inside : rawOkF raw = true) :
    isFinite (fmul d raw) = true ∧ 0 ≤ floatValue (fmul d raw) ∧ floatValue (fmul d raw) ≤ floatValue d := by
  obtain ⟨lower, upper⟩ := floatValue_mul_raw_bounds nonneg inside
  have between := roundsTo_between (fmul_raw_roundsTo hd inside) oneUnits_pos isFinite_zero hd
    (by rwa [floatValue_zero, zero_mul]) upper
  rwa [floatValue_zero] at between

/-- The product is below a factor of more than 2^52 units: the number below that factor is nearer. -/
theorem fmul_raw_lt (hd : isFinite d = true) (large : 2 ^ 52 < floatValue d) (inside : rawOkF raw = true) :
    floatValue (fmul d raw) < floatValue d := by
  have nonneg : 0 ≤ floatValue d := by omega
  obtain ⟨finite, -, upper⟩ := fmul_raw_between hd nonneg inside
  obtain ⟨y, hy, less, gap⟩ := exists_predecessor hd large
  obtain ⟨nearest, -⟩ := (fmul_raw_roundsTo hd inside).1 finite y hy
  refine lt_of_le_of_ne upper fun same => ?_
  rw [same] at nearest
  have one : (0 : Int) < oneUnits := by exact_mod_cast oneUnits_pos
  have scaledLess : floatValue y * oneUnits < floatValue d * oneUnits := mul_lt_mul_of_pos_right less one
  have scaledGap : 2 ^ 52 * (floatValue d * oneUnits) <
      2 ^ 52 * (floatValue y * oneUnits) + floatValue d * oneUnits := by
    linarith [mul_lt_mul_of_pos_right gap one]
  have scaledRaw : 2 ^ 53 * (floatValue d * floatValue raw) ≤ (2 ^ 53 - 1) * (floatValue d * oneUnits) := by
    linarith [mul_le_mul_of_nonneg_left (floatValue_le_of_rawOkF inside) nonneg]
  generalize floatValue d * (oneUnits : Int) = whole at *
  generalize floatValue y * (oneUnits : Int) = predecessor at *
  generalize floatValue d * floatValue raw = product at *
  omega

/-! ### The difference and the sum -/

theorem fsub_roundsTo (hlo : isFinite lo = true) (hhi : isFinite hi = true) :
    roundsTo (fsub hi lo) (floatValue hi - floatValue lo) 1 :=
  (floatDifferenceNearest hi lo hhi hlo).1

theorem fsub_nonneg (hlo : isFinite lo = true) (hhi : isFinite hi = true) (hd : isFinite (fsub hi lo) = true)
    (ordered : floatValue lo ≤ floatValue hi) : 0 ≤ floatValue (fsub hi lo) := by
  rw [← floatValue_zero]
  exact le_roundsTo (fsub_roundsTo hlo hhi) one_pos hd isFinite_zero (by rw [floatValue_zero]; omega)

/-- The product is at most the exact difference of the bounds. A difference of at most 2^53 units is exact; a larger one,
were it below the product, would have been rounded to at most the product. -/
theorem fmul_fsub_raw_le (hlo : isFinite lo = true) (hhi : isFinite hi = true) (hd : isFinite (fsub hi lo) = true)
    (ordered : floatValue lo ≤ floatValue hi) (inside : rawOkF raw = true) :
    floatValue (fmul (fsub hi lo) raw) ≤ floatValue hi - floatValue lo := by
  have rounded := fsub_roundsTo hlo hhi
  obtain ⟨finite, -, atMost⟩ := fmul_raw_between hd (fsub_nonneg hlo hhi hd ordered) inside
  by_cases small : floatValue hi - floatValue lo ≤ 2 ^ 53
  · obtain ⟨y, hy, value⟩ := exists_floatValue_eq (by omega) small
    have := roundsTo_le rounded one_pos hd hy (by omega)
    omega
  · obtain ⟨y, hy, value⟩ := exists_floatValue_eq (n := 2 ^ 53) (by omega) le_rfl
    have large := le_roundsTo rounded one_pos hd hy (by omega)
    have below := fmul_raw_lt hd (by omega) inside
    by_contra above
    have := roundsTo_le rounded one_pos hd finite (by omega)
    omega

/-- The mapped value lies between the bounds. -/
theorem lerpF_between (hlo : isFinite lo = true) (hhi : isFinite hi = true) (hd : isFinite (fsub hi lo) = true)
    (accepted : fgt hi lo = true) (inside : rawOkF raw = true) :
    isFinite (lerpF raw lo hi) = true ∧ fle lo (lerpF raw lo hi) = true ∧ fle (lerpF raw lo hi) hi = true := by
  rw [fgt, flt_of_isFinite hlo hhi, decide_eq_true_iff] at accepted
  obtain ⟨finite, nonneg, -⟩ := fmul_raw_between hd (fsub_nonneg hlo hhi hd accepted.le) inside
  have atMost := fmul_fsub_raw_le hlo hhi hd accepted.le inside
  obtain ⟨rounded, -⟩ := floatSumNearest _ lo finite hlo
  obtain ⟨finiteSum, lower, upper⟩ := roundsTo_between rounded one_pos hlo hhi (by omega) (by omega)
  rw [lerpF, fle_of_isFinite hlo finiteSum, fle_of_isFinite finiteSum hhi, decide_eq_true_iff, decide_eq_true_iff]
  exact ⟨finiteSum, lower, upper⟩

/-! ### The answers -/

theorem ok_of_completeMapped_mapF (h : completeMapped s (mapF raw lo hi) = .next t) (ok : t.rspStatus = 0#3) :
    mapF raw lo hi = .ok t.rspRes.x0 := by
  rcases mapF_cases raw lo hi with range | other | ⟨-, -, mapped⟩
  · rw [range] at h
    rw [reject_next .range h, respond_rspStatus] at ok
    exact absurd ok (by decide)
  · rw [other] at h
    rw [reject_next .other h, respond_rspStatus] at ok
    exact absurd ok (by decide)
  · rw [mapped] at h ⊢
    rw [complete_next _ h]
    rfl

/-- An OK answer of a float range command is what `map_f` gives for some raw value. -/
theorem exists_mapF_of_ok (ok : t.rspStatus = 0#3)
    (h : exec (.mapf raw lo hi) s = .next t ∨ exec (.rngfs lo hi) s = .next t ∨ exec (.rngfx lo hi) s = .next t) :
    ∃ raw, mapF raw lo hi = .ok t.rspRes.x0 := by
  rcases h with mapped | scalar | multiWord
  · exact ⟨raw, ok_of_completeMapped_mapF mapped ok⟩
  · exact ⟨_, ok_of_checked_completeDrawn scalar ok⟩
  · exact ⟨_, ok_of_checked_completeDrawn multiWord ok⟩

/-- Settles O18: an OK result is a mapped word, and a mapped word lies between its bounds. -/
theorem floatRangeContainment : Obligations.FloatRangeContainment := by
  intro raw lo hi s t ok hlo hhi hd answered
  obtain ⟨fraction, mapped⟩ := exists_mapF_of_ok ok answered
  obtain ⟨accepted, inside, result⟩ := mapF_ok mapped
  rw [result]
  exact lerpF_between hlo hhi hd accepted inside

end Sys2Proof.Proofs
end

section
/-! Which status a command answers with (R200, R201), and what an answer that is not OK leaves (R202). -/

namespace Sys2Proof.Proofs

open Sys2Proof.Machine

variable {s t u : State} {i : Instr} {st : Status}

/-! ### The status of a command, from its operands -/

/-- The status of a command whose one check raises `st`. -/
def checkStatus (check : Bool) (st : Status) : Status := if check then .ok else st

theorem checkStatus_eq_or (check : Bool) (st : Status) : checkStatus check st = .ok ∨ checkStatus check st = st := by
  cases check
  · exact .inr rfl
  · exact .inl rfl

/-- The status with which a command answers, whatever the state and the entropy (R201). -/
def commandStatus : Instr → Status
  | .xbits b => checkStatus (bitCountOk b) .other
  | .mapu _ lo hi => checkStatus (rangeOkU lo hi) .range
  | .mapi _ lo hi => checkStatus (rangeOkI lo hi) .range
  | .mapf raw lo hi => if rangeOkF lo hi then checkStatus (rawOkF raw) .other else .range
  | .rngu lo hi => checkStatus (rangeOkU lo hi) .range
  | .rngi lo hi => checkStatus (rangeOkI lo hi) .range
  | .rngfs lo hi => checkStatus (rangeOkF lo hi) .range
  | .rngfx lo hi => checkStatus (rangeOkF lo hi) .range
  | _ => .ok

/-- The commands that check a range. -/
def ChecksRange (i : Instr) : Prop :=
  (∃ lo hi, i = .rngu lo hi ∨ i = .rngi lo hi ∨ i = .rngfs lo hi ∨ i = .rngfx lo hi) ∨
    (∃ raw lo hi, i = .mapu raw lo hi ∨ i = .mapi raw lo hi ∨ i = .mapf raw lo hi)

/-- The commands that check an operand other than a range. -/
def ChecksOther (i : Instr) : Prop := (∃ b, i = .xbits b) ∨ (∃ raw lo hi, i = .mapf raw lo hi)

/-- R200's table: besides OK, a command answers RANGE or OTHER, and only when it has such a check. -/
def MayAnswer (i : Instr) (st : Status) : Prop :=
  st = .ok ∨ (st = .range ∧ ChecksRange i) ∨ (st = .other ∧ ChecksOther i)

theorem MayAnswer.of_checksRange (check : Bool) (checks : ChecksRange i) : MayAnswer i (checkStatus check .range) :=
  (checkStatus_eq_or check .range).imp id fun raised => .inl ⟨raised, checks⟩

theorem MayAnswer.of_checksOther (check : Bool) (checks : ChecksOther i) : MayAnswer i (checkStatus check .other) :=
  (checkStatus_eq_or check .other).imp id fun raised => .inr ⟨raised, checks⟩

theorem commandStatus_mayAnswer (i : Instr) : MayAnswer i (commandStatus i) := by
  cases i with
  | rdseed | rdx | seed | mix | mixp | xsf | xu64 | xi64 | xf => exact .inl rfl
  | xbits b => exact .of_checksOther _ (.inl ⟨b, rfl⟩)
  | mapu raw lo hi => exact .of_checksRange _ (.inr ⟨raw, lo, hi, .inl rfl⟩)
  | mapi raw lo hi => exact .of_checksRange _ (.inr ⟨raw, lo, hi, .inr (.inl rfl)⟩)
  | mapf raw lo hi =>
    rw [commandStatus]
    split
    · exact .of_checksOther _ (.inr ⟨raw, lo, hi, rfl⟩)
    · exact .inr (.inl ⟨rfl, .inr ⟨raw, lo, hi, .inr (.inr rfl)⟩⟩)
  | rngu lo hi => exact .of_checksRange _ (.inl ⟨lo, hi, .inl rfl⟩)
  | rngi lo hi => exact .of_checksRange _ (.inl ⟨lo, hi, .inr (.inl rfl)⟩)
  | rngfs lo hi => exact .of_checksRange _ (.inl ⟨lo, hi, .inr (.inr (.inl rfl))⟩)
  | rngfx lo hi => exact .of_checksRange _ (.inl ⟨lo, hi, .inr (.inr (.inr rfl))⟩)

theorem MayAnswer.producedCode (h : MayAnswer i st) : producedCode (statusCode st) := by
  rcases h with rfl | ⟨rfl, -⟩ | ⟨rfl, -⟩
  · exact .inl rfl
  · exact .inr (.inl rfl)
  · exact .inr (.inr (.inl rfl))

/-! ### How a command ends -/

/-- From `s` a command ends in `t` with the status `st`, and unless that is OK it is a rejection. -/
def EndsWith (st : Status) (s t : State) : Prop :=
  t.rspStatus = statusCode st ∧ (st ≠ .ok → t = respond s st Quad.zero)

theorem EndsWith.of_complete {res : Quad} (h : complete u res = .next t) : EndsWith .ok s t := by
  rw [complete_next res h]
  exact ⟨rfl, fun notOk => absurd rfl notOk⟩

theorem EndsWith.of_reject (h : reject s st = .next t) : EndsWith st s t := by
  rw [reject_next st h]
  exact ⟨rfl, fun _ => rfl⟩

/-- One check, and behind it an answer that raises nothing. -/
theorem EndsWith.of_check {check : Bool} {answer : Host.Outcome State Fault Refusal}
    (h : (if check then answer else reject s st) = .next t) (passed : answer = .next t → EndsWith .ok s t) :
    EndsWith (checkStatus check st) s t := by
  cases check
  · exact .of_reject h
  · exact passed h

theorem EndsWith.of_completeMapped {check : Bool} {w : Word}
    (h : completeMapped s (if check then .ok w else .error st) = .next t) : EndsWith (checkStatus check st) s t := by
  cases check
  · exact .of_reject h
  · exact .of_complete h

theorem EndsWith.of_completeDrawn {r : Except Status Word} (h : completeDrawn u r = .next t) : EndsWith .ok s t := by
  obtain ⟨w, -, rfl⟩ := (completeDrawn_next_iff r).mp h
  exact .of_complete rfl

theorem exec_endsWith (h : exec i s = .next t) : EndsWith (commandStatus i) s t := by
  cases i with
  | rdseed | rdx | seed | mix | mixp | xsf | xu64 | xi64 | xf => exact .of_complete h
  | xbits b => exact .of_check h .of_complete
  | mapu raw lo hi => exact .of_completeMapped h
  | mapi raw lo hi => exact .of_completeMapped h
  | mapf raw lo hi =>
    rw [exec_mapf, mapF] at h
    rw [commandStatus]
    split at h
    · rw [if_pos ‹_›]; exact .of_completeMapped h
    · rw [if_neg ‹_›]; exact .of_reject h
  | rngu lo hi => exact .of_check h .of_completeDrawn
  | rngi lo hi => exact .of_check h .of_completeDrawn
  | rngfs lo hi => exact .of_check h .of_completeDrawn
  | rngfx lo hi => exact .of_check h .of_completeDrawn

theorem runCommand_endsWith (h : runCommand s = .next t) : ∃ st, producedCode (statusCode st) ∧ EndsWith st s t := by
  rcases runCommand_cases h with ⟨i, -, executed⟩ | ⟨e, -, rfl⟩
  · exact ⟨commandStatus i, (commandStatus_mayAnswer i).producedCode, exec_endsWith executed⟩
  · exact ⟨.illegal, .inr (.inr (.inr rfl)), .of_reject rfl⟩

/-- An answer that is not OK is a rejection: the response is all that is written, with zero results. -/
theorem runCommand_rejected (h : runCommand s = .next t) (notOk : t.rspStatus ≠ 0#3) :
    ∃ st, t = respond s st Quad.zero := by
  obtain ⟨st, -, status, rejected⟩ := runCommand_endsWith h
  exact ⟨st, rejected fun ok => notOk (status.trans (congrArg statusCode ok))⟩

/-- Settles O34: the status is that of the command and its operands. -/
theorem statusFromCommandAlone : Obligations.StatusFromCommandAlone := by
  intro i s s' t t' h h'
  obtain ⟨status, -⟩ := exec_endsWith h
  obtain ⟨status', -⟩ := exec_endsWith h'
  rw [status, status']

/-- Settles O35: such a command is rejected, and a rejection writes the response alone. -/
theorem errorLeavesState : Obligations.ErrorLeavesState := by
  intro s t h notOk
  obtain ⟨st, rfl⟩ := runCommand_rejected h notOk
  exact ⟨rfl, rfl, rfl⟩

/-- Settles O36: the status is that of the command's own check, if it has one that fails. -/
theorem statusProducers : Obligations.StatusProducers := by
  intro i s t h
  obtain ⟨status, -⟩ := exec_endsWith h
  rw [status]
  rcases commandStatus_mayAnswer i with ok | ⟨range, checks⟩ | ⟨other, checks⟩
  · rw [ok]
    exact ⟨.inl rfl, fun isRange => absurd isRange (by decide), fun isOther => absurd isOther (by decide)⟩
  · rw [range]
    exact ⟨.inr (.inl rfl), fun _ => checks, fun isOther => absurd isOther (by decide)⟩
  · rw [other]
    exact ⟨.inr (.inr rfl), fun isRange => absurd isRange (by decide), fun _ => checks⟩

end Sys2Proof.Proofs
end

section
/-! No command and no edge stops (R205, R208), and every edge keeps the response registers legal (R200, R202, R32). -/

namespace Sys2Proof.Proofs

open Sys2Proof.Machine

variable {s t : State}

/-! ### Every command and every edge goes on -/

/-- Settles O32: every command completes, and writes SEED, X and its response at most. -/
theorem everyCommandCompletes : Obligations.EveryCommandCompletes := by
  intro i s
  obtain ⟨t, h⟩ := exec_completes i s
  refine ⟨t, h, ?_⟩
  obtain ⟨seed, x, st, res, rfl⟩ := exec_sameInterface h
  exact ⟨rfl, rfl, rfl, rfl, rfl⟩

theorem runCommand_completes (s : State) : ∃ t, runCommand s = .next t := by
  cases decoded : decode s.pins.command with
  | ok i =>
    rw [runCommand_of_decode decoded]
    exact exec_completes i s
  | error e => exact ⟨_, runCommand_of_illegal decoded⟩

theorem step_of_reset (rst : s.pins.rstN = false) : step s = .next (resetEdge s) := by
  simp [step, clockEdge, rst]

theorem step_of_idle (rst : s.pins.rstN = true) (idle : s.outstanding = none) (quiet : s.pins.cmdValid = false) :
    step s = .next (nextPins s) := by
  simp [step, clockEdge, rst, idle, quiet]

/-- Settles O33: an edge in reset, an idle edge, an accepted command, and an edge with a command outstanding. -/
theorem stepNeverStops : Obligations.StepNeverStops := by
  intro s
  cases rst : s.pins.rstN with
  | false => exact ⟨_, step_of_reset rst⟩
  | true =>
    cases outstanding : s.outstanding with
    | none =>
      cases valid : s.pins.cmdValid with
      | false => exact ⟨_, step_of_idle rst outstanding valid⟩
      | true =>
        obtain ⟨t, run⟩ := runCommand_completes s
        exact ⟨_, (step_of_accept rst outstanding valid).trans (acceptEdge_of_next run)⟩
    | some n =>
      obtain ⟨-, -, -, t, next, -⟩ := oneCommandOutstanding s n rst outstanding
      exact ⟨t, next⟩

/-! ### The response registers -/

theorem responseLegal_of_cleared (status : t.rspStatus = 0#3) (res : t.rspRes = Quad.zero) : responseLegal t :=
  ⟨.inl status, fun _ => res, fun _ => ⟨status, res⟩⟩

/-- What a command answers is legal while its response is outstanding. -/
theorem openResponse_responseLegal (h : runCommand s = .next t) : responseLegal (openResponse t) := by
  refine ⟨?_, fun notOk => ?_, fun idle => nomatch idle⟩
  · obtain ⟨st, produced, status, -⟩ := runCommand_endsWith h
    exact status ▸ produced
  · obtain ⟨st, rfl⟩ := runCommand_rejected h notOk
    rfl

/-- Settles O48: an edge in reset and a response taken clear the registers, an accepted command writes its answer, and any
other edge leaves them as they are. -/
theorem stepKeepsResponseLegal : Obligations.StepKeepsResponseLegal := by
  intro s t legal h
  rcases step_cases h with ⟨-, rfl⟩ | ⟨-, -, -, rfl⟩ | ⟨-, -, -, u, run, rfl⟩ | ⟨-, n, -, rfl⟩ | ⟨-, -, -, rfl⟩ |
    ⟨-, -, -, rfl⟩
  · exact responseLegal_of_cleared rfl rfl
  · exact legal
  · exact openResponse_responseLegal run
  · obtain ⟨produced, zeroes, -⟩ := legal
    exact ⟨produced, zeroes, fun idle => nomatch idle⟩
  · exact legal
  · exact responseLegal_of_cleared rfl rfl

end Sys2Proof.Proofs
end

section
/-! Which commands move the streams (R234), and the scalar stream stuck at SEED 0 (R236). -/

namespace Sys2Proof.Proofs

open Sys2Proof.Machine Sys2Proof.Claims

variable {s t u : State} {i : Instr} {st : Status}

/-! ### The streams a command leaves -/

/-- `t` holds the scalar stream and the multi-word stream of `u`. -/
structure SameStreams (u t : State) : Prop where
  seed : t.seed = u.seed
  x : t.x = u.x

theorem SameStreams.of_complete {res : Quad} (h : complete u res = .next t) : SameStreams u t := by
  rw [complete_next res h]
  exact ⟨rfl, rfl⟩

theorem SameStreams.of_reject (h : reject u st = .next t) : SameStreams u t := by
  rw [reject_next st h]
  exact ⟨rfl, rfl⟩

theorem SameStreams.of_completeMapped {r : Except Status Word} (h : completeMapped u r = .next t) :
    SameStreams u t := by
  cases r with
  | ok w => exact .of_complete h
  | error st => exact .of_reject h

theorem SameStreams.of_completeDrawn {r : Except Status Word} (h : completeDrawn u r = .next t) :
    SameStreams u t := by
  obtain ⟨w, -, rfl⟩ := (completeDrawn_next_iff r).mp h
  exact ⟨rfl, rfl⟩

/-- A check that fails leaves the streams of `s`; what stands behind it may leave those of `u`. -/
theorem sameStreams_or_of_check {check : Bool} {answer : Host.Outcome State Fault Refusal}
    (h : (if check then answer else reject s st) = .next t) (passed : answer = .next t → SameStreams u t) :
    SameStreams u t ∨ SameStreams s t := by
  cases check
  · exact .inr (.of_reject h)
  · exact .inl (passed h)

/-- The state with its streams moved as the command `i` moves them when its checks pass. -/
def moveStreams (i : Instr) (s : State) : State :=
  match i with
  | .seed v => setX (setSeed s (derive4 (seedValue v s)).1) (derive4 (seedValue v s)).2
  | .mix => setSeed s (mixStep s.seed).1
  | .xsf | .rngfs _ _ => stepScalar s
  | .xu64 | .xi64 | .xbits _ | .xf | .rngu _ _ | .rngi _ _ | .rngfx _ _ => advanceX s
  | .rdseed | .rdx | .mixp _ | .mapu _ _ _ | .mapi _ _ _ | .mapf _ _ _ => s

/-- A command leaves its streams moved, or, when its check fails, as they were. -/
theorem exec_streams (h : exec i s = .next t) : SameStreams (moveStreams i s) t ∨ SameStreams s t := by
  cases i with
  | rdseed | rdx | seed | mix | mixp | xsf | xu64 | xi64 | xf => exact .inl (.of_complete h)
  | mapu | mapi | mapf => exact .inl (.of_completeMapped h)
  | xbits => exact sameStreams_or_of_check h .of_complete
  | rngu | rngi | rngfs | rngfx => exact sameStreams_or_of_check h .of_completeDrawn

theorem moveStreams_seed (still : movesScalar i = false) : (moveStreams i s).seed = s.seed := by
  cases i with
  | seed | mix | xsf | rngfs => cases still
  | rdseed | rdx | mixp | xu64 | xi64 | xbits | xf | mapu | mapi | mapf | rngu | rngi | rngfx => rfl

theorem moveStreams_x (still : movesMultiWord i = false) : (moveStreams i s).x = s.x := by
  cases i with
  | seed | xu64 | xi64 | xbits | xf | rngu | rngi | rngfx => cases still
  | mix => exact setSeed_x s _
  | rdseed | rdx | mixp | xsf | mapu | mapi | mapf | rngfs => rfl

theorem exec_streams_of_error (h : exec i s = .next t) (notOk : t.rspStatus ≠ 0#3) : SameStreams s t := by
  obtain ⟨status, rejected⟩ := exec_endsWith h
  rw [rejected fun ok => notOk (status.trans (congrArg statusCode ok))]
  exact ⟨rfl, rfl⟩

/-- Settles O37: a command leaves the streams as it moves them or as they were, and an error as they were. -/
theorem streamMovers : Obligations.StreamMovers := by
  intro i s t h
  constructor
  · rintro (still | notOk)
    · rcases exec_streams h with moved | same
      · exact moved.seed.trans (moveStreams_seed still)
      · exact same.seed
    · exact (exec_streams_of_error h notOk).seed
  · rintro (still | notOk)
    · rcases exec_streams h with moved | same
      · exact moved.x.trans (moveStreams_x still)
      · exact same.x
    · exact (exec_streams_of_error h notOk).x

/-! ### A raw value of zero (R181) -/

section
variable {a b d raw lo hi : Word}

/-- A sign and a value are one pattern's alone. -/
theorem eq_of_floatSign_eq_of_floatValue_eq (sign : floatSign a = floatSign b) (value : floatValue a = floatValue b) :
    a = b := by
  have magnitude : a.toNat % 2 ^ 63 = b.toNat % 2 ^ 63 :=
    magUnits_strictMono.injective (by rw [← natAbs_floatValue, ← natAbs_floatValue, value])
  have boundA := a.isLt
  have boundB := b.isLt
  rw [floatSign, floatSign, decide_eq_decide] at sign
  exact BitVec.eq_of_toNat_eq (by omega)

theorem floatSign_eq_decide (nonzero : floatValue a ≠ 0) : floatSign a = decide (floatValue a < 0) := by
  have value := floatValue_eq a
  cases sign : floatSign a with
  | false =>
    rw [sign, signed, if_neg Bool.false_ne_true] at value
    exact (decide_eq_false (by omega)).symm
  | true =>
    rw [sign, signed, if_pos rfl] at value
    exact (decide_eq_true (by omega)).symm

theorem fmul_of_raw_zero (hd : isFinite d = true) (inside : rawOkF raw = true) (zero : floatValue raw = 0) :
    isFinite (fmul d raw) = true ∧ floatValue (fmul d raw) = 0 := by
  have rounded := fmul_raw_roundsTo hd inside
  rw [zero, mul_zero] at rounded
  obtain ⟨finite, lower, upper⟩ := roundsTo_between rounded oneUnits_pos isFinite_zero isFinite_zero
    (by rw [floatValue_zero, zero_mul]) (by rw [floatValue_zero, zero_mul])
  rw [floatValue_zero] at lower upper
  exact ⟨finite, le_antisymm upper lower⟩

/-- A zero added to a finite number gives that number, and its very pattern unless that is -0.0 (log 16). -/
theorem fadd_of_floatValue_eq_zero (ha : isFinite a = true) (zero : floatValue a = 0) (hb : isFinite b = true) :
    isFinite (fadd a b) = true ∧ floatValue (fadd a b) = floatValue b ∧
      (b ≠ 0x8000000000000000#64 → fadd a b = b) := by
  obtain ⟨rounded, zeroSum⟩ := floatSumNearest a b ha hb
  rw [zero, zero_add] at rounded zeroSum
  obtain ⟨finite, lower, upper⟩ := roundsTo_between rounded one_pos hb hb (by simp) (by simp)
  have value : floatValue (fadd a b) = floatValue b := le_antisymm upper lower
  refine ⟨finite, value, fun notNegZero => ?_⟩
  by_cases zeroB : floatValue b = 0
  · have positive : floatSign b = false := by
      by_contra negative
      exact notNegZero (eq_of_floatSign_eq_of_floatValue_eq (Bool.eq_true_of_not_eq_false negative) zeroB)
    rw [zeroSum zeroB, positive, Bool.and_false]
    exact eq_of_floatSign_eq_of_floatValue_eq positive.symm (floatValue_zero.trans zeroB.symm)
  · refine eq_of_floatSign_eq_of_floatValue_eq ?_ value
    rw [floatSign_eq_decide zeroB, floatSign_eq_decide (value.trans_ne zeroB), value]

theorem lerpF_of_raw_zero (hlo : isFinite lo = true) (hd : isFinite (fsub hi lo) = true) (inside : rawOkF raw = true)
    (zero : floatValue raw = 0) :
    isFinite (lerpF raw lo hi) = true ∧ floatValue (lerpF raw lo hi) = floatValue lo ∧
      (lo ≠ 0x8000000000000000#64 → lerpF raw lo hi = lo) := by
  obtain ⟨finite, value⟩ := fmul_of_raw_zero hd inside zero
  exact fadd_of_floatValue_eq_zero finite value hlo

end

/-! ### SEED 0 (R236) -/

theorem xsFloat_zero : xsFloat 0 = 0 := by decide

theorem xsStep_of_seed_zero (stuck : s.seed = 0) : xsStep s.seed = 0 := (congrArg xsStep stuck).trans xsStep_zero

theorem setSeed_of_seed_eq {v : Word} (h : s.seed = v) : setSeed s v = s := by
  rw [← h, setSeed]

theorem completeDrawn_ok (s : State) (w : Word) :
    completeDrawn s (.ok w) = .next { s with rspStatus := 0#3, rspRes := ⟨w, 0, 0, 0⟩ } := rfl

theorem moveStreams_seed_zero (stuck : s.seed = 0) (notSeed : ∀ v, i ≠ .seed v) (notMix : i ≠ .mix) :
    (moveStreams i s).seed = 0 := by
  cases i with
  | seed v => exact absurd rfl (notSeed v)
  | mix => exact absurd rfl notMix
  | xsf | rngfs => exact xsStep_of_seed_zero stuck
  | rdseed | rdx | mixp | xu64 | xi64 | xbits | xf | mapu | mapi | mapf | rngu | rngi | rngfx => exact stuck

/-- Settles O41: SEED 0 steps to 0, whose fraction is +0.0, and mapping that gives `lo`. -/
theorem zeroSeedStuck : Obligations.ZeroSeedStuck := by
  intro s stuck
  refine ⟨?_, fun lo hi accepted hlo hd => ?_, fun i t notSeed notMix h => ?_⟩
  · rw [exec_xsf, xsStep_of_seed_zero stuck, setSeed_of_seed_eq stuck, xsFloat_zero, respond_ok, Quad.single]
  · have inside : rawOkF (xsFloat 0) = true := rawOkF_xsFloat 0
    refine ⟨lerpF (xsFloat 0) lo hi, ?_, lerpF_of_raw_zero hlo hd inside
      ((congrArg floatValue xsFloat_zero).trans floatValue_zero)⟩
    rw [exec_rngfs, if_pos (rangeOkF_iff.mpr accepted), xsStep_of_seed_zero stuck, setSeed_of_seed_eq stuck,
      mapF_of_ok (rangeOkF_iff.mpr accepted) inside, completeDrawn_ok]
  · rcases exec_streams h with moved | same
    · exact moved.seed.trans (moveStreams_seed_zero stuck notSeed notMix)
    · exact same.seed.trans stuck

end Sys2Proof.Proofs
end

section
/-! Edges without a handshake (R239), the wait for a response (R241), and an edge in reset (R230). -/

namespace Sys2Proof.Proofs

open Sys2Proof.Machine

variable {s : State}

/-- Settles O54: an idle edge and a response held move the ports on and do nothing else. -/
theorem noHandshakeNoEffect : Obligations.NoHandshakeNoEffect := by
  rintro s rst (⟨idle, quiet⟩ | ⟨held, notReady⟩)
  · exact step_of_idle rst idle quiet
  · exact step_of_held rst held notReady

/-! ### The wait -/

/-- This edge is not in reset, and after it there is one edge fewer to keep out of reset: a script that has run out
drives no reset. -/
theorem noResetFor_succ {k : Nat} (h : noResetFor (k + 1) s) (n : Nat) :
    s.pins.rstN = true ∧ noResetFor k (waitEdge s n) := by
  obtain ⟨rst, later⟩ := h
  refine ⟨rst, ?_⟩
  cases k with
  | zero => trivial
  | succ k =>
    rw [noResetFor, waitEdge_pins, waitEdge_script]
    cases script : s.script with
    | nil => exact ⟨rfl, by simp⟩
    | cons p ps =>
      rw [script, List.take_succ_cons, List.forall_mem_cons] at later
      exact later

/-- Settles O55, by induction on the edges run: each is an edge of the wait. -/
theorem responseDelivered : Obligations.ResponseDelivered := by
  intro n k
  induction k generalizing n with
  | zero => exact fun s _ outstanding _ => ⟨s, rfl, outstanding, rfl, rfl, rfl, rfl⟩
  | succ k ih =>
    intro s within outstanding noReset
    obtain ⟨left, rfl⟩ : ∃ left, n = left + 1 := ⟨n - 1, by omega⟩
    obtain ⟨rst, later⟩ := noResetFor_succ noReset left
    have first : core.step s = .next (waitEdge s left) := step_of_wait rst outstanding
    obtain ⟨t, run, waits, delivered⟩ := ih left (waitEdge s left) (Nat.le_of_succ_le_succ within)
      (waitEdge_outstanding s left) later
    exact ⟨t, (run_succ_of_step first k).trans run, by rw [waits, Nat.add_sub_add_right], delivered⟩

/-! ### An edge in reset -/

theorem cmdReady_of_reset (rst : s.pins.rstN = false) : cmdReady s = false := by
  rw [cmdReady, rst, Bool.false_and]

theorem rspValid_of_reset (rst : s.pins.rstN = false) : rspValid s = false := by
  rw [rspValid, rst, Bool.false_and]

theorem taken_of_not_rspValid (h : rspValid s = false) : taken s = none := by
  simp [taken, h]

theorem rspStatusPort_of_not_rspValid (h : rspValid s = false) : rspStatusPort s = 0#3 := by
  simp [rspStatusPort, h]

theorem rspResPort_of_not_rspValid (h : rspValid s = false) : rspResPort s = Quad.zero := by
  simp [rspResPort, h]

/-- Settles O56: in reset neither handshake can happen, and the edge leaves nothing outstanding. -/
theorem resetEdgeEffect : Obligations.ResetEdgeEffect := by
  intro s rst
  have notReady := cmdReady_of_reset rst
  have notValid := rspValid_of_reset rst
  have idle : (resetEdge s).outstanding = none := resetEdge_outstanding s
  have empty := rspValid_of_idle idle
  exact ⟨notReady, notValid, accepted_of_not_cmdReady notReady, taken_of_not_rspValid notValid, resetEdge s,
    step_of_reset rst, rfl, rfl, idle, fun released => ⟨(cmdReady_of_idle idle).trans released, empty,
      rspStatusPort_of_not_rspValid empty, rspResPort_of_not_rspValid empty⟩⟩

end Sys2Proof.Proofs
end
